-- ==== Sys2Proof/Word.lean ====
section
/-! DEFINITION. The word types of the CORE block: the widths of `00_scope.md` R5 and R6. -/

namespace Sys2Proof

/-- The narrow word, `W = 32` bits, unsigned (R5, R6). -/
abbrev Word32 := BitVec 32

/-- The wide word, `WW = 64` bits, unsigned (R5, R6). -/
abbrev Word64 := BitVec 64

/-- The `op` port and field, `OP_WIDTH = 2` bits (R5, R49). -/
abbrev OpCode := BitVec 2

/-- The canonical command word `cmd = {op, opa, opb}`, 98 bits (R50). -/
abbrev CmdWord := BitVec 98

end Sys2Proof
end

