-- ==== Sys2Proof/Machine/Operands.lean ====
section
/-! DEFINITION. Truncation, extension and fields (`00_scope.md` R6, R7), and which operand bits each operation reads
(`30_encoding.md` R53). -/

namespace Sys2Proof.Machine

/-- `trunc_32(v)`, `v mod 2^32` (R7). -/
def trunc32 (v : Word64) : Word32 := v.setWidth 32

/-- `zext_64(v)` of a field of at most 64 bits (R7, R54). -/
def zext64 {n : Nat} (v : BitVec n) : Word64 := v.setWidth 64

/-- `opa[31:0]` (R6, R53). -/
def lowHalf (opa : Word64) : Word32 := opa.extractLsb' 0 32

/-- `opa[63:32]` (R6). -/
def highHalf (opa : Word64) : Word32 := opa.extractLsb' 32 32

/-- `x` of `CLZ` (R53): `opa[63:32]` is ignored. -/
def clzOperand (opa : Word64) : Word32 := lowHalf opa

/-- `a` and `b` of `MUL` (R53): `opa[63:32]` is ignored. -/
def mulOperands (opa : Word64) (opb : Word32) : Word32 × Word32 := (lowHalf opa, opb)

/-- `n` and `d` of `DIV` (R53): no bit is ignored. -/
def divOperands (opa : Word64) (opb : Word32) : Word64 × Word32 := (opa, opb)

/-- `x` of `RSQRT` (R53): `opa[63:32]` is ignored. -/
def rsqrtOperand (opa : Word64) : Word32 := lowHalf opa

end Sys2Proof.Machine
end

