-- ==== Sys2Proof/Syntax.lean ====
section
/-! DEFINITION. The command set CORE-CMD (`30_encoding.md`): the four commands, one constructor per row of
spec/opcode_table.json, and the textual form of a command (R57). -/

namespace Sys2Proof

/-- A command as the ports carry it (R49): the operation, and BOTH operand ports whole, since the block latches all
of `opa` and `opb` (R26) although an operation may ignore some of their bits (R53). -/
inductive Instr where
  /-- `CLZ`: count leading zeros of `opa[31:0]` (R60). -/
  | clz (opa : Word64) (opb : Word32)
  /-- `MUL`: exact product of `opa[31:0]` and `opb` (R66). -/
  | mul (opa : Word64) (opb : Word32)
  /-- `DIV`: quotient of `opa` by `opb` (R70). -/
  | div (opa : Word64) (opb : Word32)
  /-- `RSQRT`: Q16.16 approximation of `65536 / sqrt(opa[31:0])` (R74). -/
  | rsqrt (opa : Word64) (opb : Word32)
  deriving DecidableEq, Repr

/-- The four mnemonics (R51, R57). -/
inductive Mnemonic where
  | clz
  | mul
  | div
  | rsqrt
  deriving DecidableEq, Repr

/-- A command in its textual form, after its literals are read (R57): a mnemonic as it is spelled, then the operands'
values. Unlike a binary word it can be ill-formed (R58). -/
structure AsmLine where
  mnemonic : List Char
  operands : List Nat
  deriving DecidableEq, Repr

end Sys2Proof
end

