-- ==== Sys2Proof/WellFormed.lean ====
section
/-! DEFINITION. Which terms of the syntax are commands. A binary command cannot be ill-formed (`30_encoding.md` R52,
R58): ill-formedness exists only in the textual form, which R58 checks in three ways. -/

namespace Sys2Proof

/-- Every binary command is well-formed: no encoding is reserved or illegal, and ignored operand bits may hold anything
(R52, R53). The widths of the ports are in the types. -/
def Instr.wellFormed : Instr → Bool
  | .clz _ _ => true
  | .mul _ _ => true
  | .div _ _ => true
  | .rsqrt _ _ => true

/-- The command is one the textual form can express: every operand bit that R57 does not name is zero. -/
def Instr.hasText : Instr → Bool
  | .clz opa opb => decide (opa.toNat < 2 ^ 32 ∧ opb = 0)
  | .mul opa _ => decide (opa.toNat < 2 ^ 32)
  | .div _ _ => true
  | .rsqrt opa opb => decide (opa.toNat < 2 ^ 32 ∧ opb = 0)

/-- The mnemonic of a spelling, which is case-insensitive (R57); none where it is not one of the four (R58). -/
def lookupMnemonic (name : List Char) : Option Mnemonic :=
  let upper := name.map Char.toUpper
  if upper = ['C', 'L', 'Z'] then some .clz
  else if upper = ['M', 'U', 'L'] then some .mul
  else if upper = ['D', 'I', 'V'] then some .div
  else if upper = ['R', 'S', 'Q', 'R', 'T'] then some .rsqrt
  else none

/-- For each operand the text of a mnemonic names, in order, the number its literal must stay below (R57). -/
def Mnemonic.operandBounds : Mnemonic → List Nat
  | .clz => [2 ^ 32]
  | .mul => [2 ^ 32, 2 ^ 32]
  | .div => [2 ^ 64, 2 ^ 32]
  | .rsqrt => [2 ^ 32]

/-- R58, third refusal: the mnemonic is one of the four. -/
def AsmLine.knownMnemonic (l : AsmLine) : Bool := (lookupMnemonic l.mnemonic).isSome

/-- R58, second refusal: no operand is missing and none is extra. -/
def AsmLine.operandCountFits (l : AsmLine) : Bool :=
  match lookupMnemonic l.mnemonic with
  | some m => l.operands.length == m.operandBounds.length
  | none => false

/-- R58, first refusal: every literal is in the range of R57. -/
def AsmLine.literalsInRange (l : AsmLine) : Bool :=
  match lookupMnemonic l.mnemonic with
  | some m => (l.operands.zip m.operandBounds).all fun p => decide (p.1 < p.2)
  | none => false

/-- The line is a command: all three checks of R58. -/
def AsmLine.wellFormed (l : AsmLine) : Bool :=
  l.knownMnemonic && l.operandCountFits && l.literalsInRange

end Sys2Proof
end

