-- ==== Sys2Proof/Decode.lean ====
section
/-! DEFINITION. From ports and command words to commands and back (`30_encoding.md` R49 to R56). -/

namespace Sys2Proof

/-- Operation code of `CLZ` (R51). -/
def opClz : OpCode := 0b00#2

/-- Operation code of `MUL` (R51). -/
def opMul : OpCode := 0b01#2

/-- Operation code of `DIV` (R51). -/
def opDiv : OpCode := 0b10#2

/-- Operation code of `RSQRT` (R51). -/
def opRsqrt : OpCode := 0b11#2

/-- The command the three command ports present. It reads `op` alone, and all four codes are defined (R51, R52, R56). -/
def decodePorts (op : OpCode) (opa : Word64) (opb : Word32) : Instr :=
  if op = opClz then .clz opa opb
  else if op = opMul then .mul opa opb
  else if op = opDiv then .div opa opb
  else .rsqrt opa opb

/-- The command of a canonical word: `op = cmd[97:96]`, `opa = cmd[95:32]`, `opb = cmd[31:0]` (R50). -/
def decodeWord (w : CmdWord) : Instr :=
  decodePorts (w.extractLsb' 96 2) (w.extractLsb' 32 64) (w.extractLsb' 0 32)

/-- Why a number is not a command. -/
inductive DecodeError where
  /-- It has a bit above bit 97, which a canonical word never has (R50). Log 9. Safe. -/
  | notACommandWord
  deriving DecidableEq, Repr

/-- The decoder on any number: the command of a 98-bit word, every other number refused by name (R50, R52). Log 9. -/
def decodeNat (n : Nat) : Except DecodeError Instr :=
  if n < 2 ^ 98 then .ok (decodeWord (BitVec.ofNat 98 n)) else .error .notACommandWord

/-- The operation code of a command (R51). -/
def Instr.op : Instr → OpCode
  | .clz _ _ => opClz
  | .mul _ _ => opMul
  | .div _ _ => opDiv
  | .rsqrt _ _ => opRsqrt

/-- The value of the `opa` port that presents a command (R49). -/
def Instr.opa : Instr → Word64
  | .clz a _ => a
  | .mul a _ => a
  | .div a _ => a
  | .rsqrt a _ => a

/-- The value of the `opb` port that presents a command (R49). -/
def Instr.opb : Instr → Word32
  | .clz _ b => b
  | .mul _ b => b
  | .div _ b => b
  | .rsqrt _ b => b

/-- The encoder: `cmd = {op, opa, opb}` with `op` in the high bits (R50). -/
def encode (i : Instr) : CmdWord := (i.op ++ i.opa) ++ i.opb

/-- One hexadecimal digit, as the listings write it. -/
def hexDigit (n : Nat) : Char := Char.ofNat (if n < 10 then 48 + n else 55 + n)

/-- The listing of a command word: 25 hexadecimal digits, the most significant first (R50). -/
def listing (w : CmdWord) : List Char :=
  (List.range 25).map fun k => hexDigit (w.toNat / 16 ^ (24 - k) % 16)

/-- The command the decoder reads from the word whose bits are `w`, numbered as spec/opcode_table.json numbers them,
of which `nbits` are given and the bits above are 0. The block stores no words: a command is one 98-bit number on
paper (R50). Log 8, log 9. -/
def decodeTableWord (nbits w : Nat) : Option Instr :=
  match decodeNat (w % 2 ^ nbits) with
  | .ok i => some i
  | .error _ => none

end Sys2Proof
end

