-- ==== Sys2Proof/Config.lean ====
section
/-! DEFINITION. What one built block fixes (`00_scope.md` R5): the parameters with a value, and the OPEN latencies,
which are opaque constants, so that nothing in Lean can know their values; and the OPEN `HOST_MAP`, opaque too. The
default contents of the estimate ROM stand in Machine/Rom.lean. -/

namespace Sys2Proof

/-- The latency parameters `LAT_CLZ`, `LAT_MUL`, `LAT_DIV`, `LAT_RSQRT`, counts of rising edges (R5, R27). -/
structure Latencies where
  clz   : Nat
  mul   : Nat
  div   : Nat
  rsqrt : Nat
  deriving DecidableEq, Repr

/-- The parameter `HOST_MAP`: where, and in what byte order, a host sees the ports (R5, U6, `20_memory.md` R39, R43). Each
port has the address of each of its bytes, the byte of its least significant bits first, so any byte order is one such
map. Log 11. -/
structure HostMap where
  rst    : Nat
  start  : Nat
  op     : Nat
  opa    : Vector Nat 8
  opb    : Vector Nat 4
  busy   : Nat
  done   : Nat
  result : Vector Nat 8
  deriving DecidableEq, Repr, Inhabited

namespace Config

/-- `MUL_ITERS`, of the reference algorithm only (R5). -/
def mulIters : Nat := 32

/-- `DIV_ITERS`, of the reference algorithm only (R5). -/
def divIters : Nat := 64

/-- What the built block adds to the least latency of `CLZ`: OPEN (R5, R114, D9), no value chosen. Log 5. -/
opaque extraClz : Nat

/-- What the built block adds to the least latency of `MUL`: OPEN (R5, R114, D9), no value chosen. Log 5. -/
opaque extraMul : Nat

/-- What the built block adds to the least latency of `DIV`: OPEN (R5, R114, D9), no value chosen. Log 5. -/
opaque extraDiv : Nat

/-- What the built block adds to the least latency of `RSQRT`: OPEN (R5, R114, D9), no value chosen. Log 5. -/
opaque extraRsqrt : Nat

/-- The latencies of the built block: unknown, each at least 1 (R5, R27, R114). -/
def latencies : Latencies :=
  { clz := extraClz + 1, mul := extraMul + 1, div := extraDiv + 1, rsqrt := extraRsqrt + 1 }

/-- The platform's `HOST_MAP`: OPEN (R5, U6, D19), no value chosen. What a host sees through a map is in
Machine/HostMap.lean, for any map. Log 11. -/
opaque hostMap : HostMap

end Config
end Sys2Proof
end

