-- ==== Sys2Proof/Machine/Rom.lean ====
section
/-! DEFINITION. The estimate ROM, the block's only address space (`20_memory.md` R34 to R38). -/

namespace Sys2Proof.Machine

/-- The contents of the estimate ROM: 32 entries of 32 bits (R35). The ROM has no byte view (R39). -/
abbrev Rom := Vector Word32 32

/-- The default of the parameter `RSQRT_TABLE`: the values of R36. -/
def defaultTable : Rom :=
  #v[0x10000#32, 0xB505#32, 0x8000#32, 0x5A82#32, 0x4000#32, 0x2D41#32, 0x2000#32, 0x16A1#32,
     0x1000#32, 0xB50#32, 0x800#32, 0x5A8#32, 0x400#32, 0x2D4#32, 0x200#32, 0x16A#32,
     0x100#32, 0xB5#32, 0x80#32, 0x5B#32, 0x40#32, 0x2D#32, 0x20#32, 0x17#32,
     0x10#32, 0xB#32, 0x8#32, 0x6#32, 0x4#32, 0x3#32, 0x2#32, 0x1#32]

/-- `RomRead(e)`: no side effect and no fault. An index of 32 or more cannot be written down, so it has no value
(R37, R40). -/
def romRead (rom : Rom) (e : Fin 32) : Word32 := rom[e]

end Sys2Proof.Machine
end

