-- ==== Sys2Proof/Machine/State.lean ====
section
/-! DEFINITION. The state of the CORE block (`10_state.md` R18 to R33), the host's coming events, and the reasons a
step can stop. -/

namespace Sys2Proof.Machine

/-- The input ports as one rising edge of `clk` samples them (R11). -/
structure InputPorts where
  rst   : Bool
  start : Bool
  op    : OpCode
  opa   : Word64
  opb   : Word32
  deriving DecidableEq, Repr

/-- The output ports (R12). -/
inductive OutputPort where
  | busy
  | done
  | result
  deriving DecidableEq, Repr

/-- What the host does to the block next. Log 1. -/
inductive HostEvent where
  /-- A rising edge of `clk` at which the input ports hold these values (R11). -/
  | edge (p : InputPorts)
  /-- The host reads an output port in the current cycle (R42, R109). -/
  | read (o : OutputPort)
  deriving DecidableEq, Repr

/-- The state, R33's record with the ROM of R18, the OPEN latencies of R5 and the host's coming events. An Option here is
the spec's own: `none` is UNSPECIFIED, or "none" for `pend` (R9, R22, R33). Log 3. -/
structure State where
  /-- A reset edge has occurred since power-up (R33, R106). -/
  inited : Bool
  /-- A command is in flight (R19). -/
  busy   : Bool
  /-- The one-cycle pulse after a completion edge (R20). -/
  done   : Bool
  /-- The result register (R21). -/
  result : Option Word64
  /-- `op_q`, the latched operation code (R22). -/
  opQ    : Option OpCode
  /-- `a_q`, the latched first operand (R22). -/
  aQ     : Option Word64
  /-- `b_q`, the latched second operand (R22). -/
  bQ     : Option Word32
  /-- `pend`, what the completion edge will publish (R22). -/
  pend   : Option Word64
  /-- `cnt`, the edges left before completion (R22). -/
  cnt    : Nat
  /-- The estimate ROM, constant (R18, R35). Log 6. -/
  rom    : Rom
  /-- The built block's latencies, constant (R5, R27). Log 5. -/
  lat    : Latencies
  /-- What the host does next, first event first: the model's own field. Log 1. -/
  inputs : List HostEvent
  deriving DecidableEq, Repr

/-- Why a run is stopped as an error of the run. The block itself raises no exception (R92). -/
inductive Fault where
  /-- The host read an output port whose value is UNSPECIFIED (R9, R109, U1, U2). Raised by the port reads of
  Machine/Ops.lean, never by a command. Safe: a built block returns some value there. -/
  | unspecifiedRead (o : OutputPort)
  deriving DecidableEq, Repr

/-- Why the model gives a step no meaning. -/
inductive Refusal where
  /-- The command has no meaning in the model yet. No arm of `exec` raises it: all four commands have a meaning. Safe. -/
  | notModelled (mnemonic : String)
  /-- A rising edge with `rst = 0` before the first reset edge (R106, U3, D13). Raised by every command and by the quiet
  edge. Safe: the spec gives such a run no meaning. -/
  | beforeFirstReset
  deriving DecidableEq, Repr

/-- The outcome of a step of the block. -/
abbrev Outcome := Host.Outcome State Fault Refusal

/-- Right after a reset edge: the table of R30, with the ROM at its default (R36, R105) and the latencies of the built
block, which stay unknown. No host event waits. Log 4, log 5, log 6. -/
def State.afterReset : State :=
  { inited := true, busy := false, done := false, result := none, opQ := none, aQ := none, bQ := none,
    pend := none, cnt := 0, rom := defaultTable, lat := Config.latencies, inputs := [] }

/-- Power-up, before any reset edge (R106). `busy` and `done` are UNSPECIFIED too: `inited = false` says so, and every
read and every edge but a reset edge stops there. Log 4. -/
def State.powerUp : State := { State.afterReset with inited := false }

/-- The state in which every run starts: R106 and D13 say that it is the uninitialised one, so the first edge of a run is
a reset edge (R107, U3), and the state after it is `State.afterReset`. Log 4. -/
def State.reset : State := State.powerUp

end Sys2Proof.Machine
end

