-- ==== Sys2Proof/Machine/Flags.lean ====
section
/-! DEFINITION. The two status bits. The block has no other flag, and no operation signals carry, overflow, zero or
division by zero (`10_state.md` R19, R20, R24). -/

namespace Sys2Proof.Machine

/-- The five cases of a rising edge (R31). -/
inductive EdgeCase where
  | reset
  | accept
  | idle
  | complete
  | hold
  deriving DecidableEq, Repr

/-- Which case an edge of a block past its first reset is, in the priority order of R31. -/
def edgeCase (p : InputPorts) (s : State) : EdgeCase :=
  if p.rst then .reset
  else if !s.busy && p.start then .accept
  else if !s.busy then .idle
  else if s.cnt = 1 then .complete
  else .hold

/-- `busy` after an edge (R19, R26, R27, R30). -/
def busyAfter (c : EdgeCase) (busy : Bool) : Bool :=
  match c with
  | .reset => false
  | .accept => true
  | .idle => busy
  | .complete => false
  | .hold => busy

/-- `done` after an edge: set at a completion edge, cleared at every other edge (R20). -/
def doneAfter (c : EdgeCase) : Bool :=
  match c with
  | .reset => false
  | .accept => false
  | .idle => false
  | .complete => true
  | .hold => false

end Sys2Proof.Machine
end

