-- ==== Sys2Proof/Machine/Ops.lean ====
section
/-! DEFINITION. The shared operations over the registers: the five edges of `10_state.md` R26 to R30, presenting a
command, and reading an output port. The block has no exception entry and no return (`60_exceptions.md` R92, R96, R97),
so there is none here. -/

namespace Sys2Proof.Machine

/-- `LAT(op)` (R27). -/
def latencyOf (lat : Latencies) (op : OpCode) : Nat :=
  if op = opClz then lat.clz
  else if op = opMul then lat.mul
  else if op = opDiv then lat.div
  else lat.rsqrt

/-- The reset edge (R30): a command in flight is abandoned. The ROM and the latencies are no registers and stay. -/
def resetEdge (s : State) : State :=
  { s with
    inited := true, busy := busyAfter .reset s.busy, done := doneAfter .reset, result := none,
    opQ := none, aQ := none, bQ := none, pend := none, cnt := 0 }

/-- The accept edge (R26) of the command `op`, `opa`, `opb`, whose operation function has the value `v`. -/
def acceptEdge (op : OpCode) (opa : Word64) (opb : Word32) (v : Word64) (s : State) : State :=
  { s with
    busy := busyAfter .accept s.busy, done := doneAfter .accept, result := none,
    opQ := some op, aQ := some opa, bQ := some opb, pend := some v, cnt := latencyOf s.lat op }

/-- The idle edge (R29): only `done` changes. -/
def idleEdge (s : State) : State :=
  { s with busy := busyAfter .idle s.busy, done := doneAfter .idle }

/-- The completion edge (R27). The latched command stays where it is and `cnt` ends at 0 (R33). Log 12. -/
def completeEdge (s : State) : State :=
  { s with
    busy := busyAfter .complete s.busy, done := doneAfter .complete, result := s.pend, pend := none, cnt := 0 }

/-- The hold edge (R28). -/
def holdEdge (s : State) : State :=
  { s with busy := busyAfter .hold s.busy, done := doneAfter .hold, cnt := s.cnt - 1 }

/-- An edge of a busy block without reset: it completes or it holds, whatever `start` and the command ports say
(R26, R27, R28, R110). -/
def busyEdge (s : State) : State :=
  if s.cnt = 1 then completeEdge s else holdEdge s

/-- An edge with `rst = 0` and `start = 0`. Before the first reset edge it is a refusal of the run (R106). -/
def quietEdge (s : State) : Outcome :=
  if s.inited = false then .refused .beforeFirstReset
  else if s.busy then .next (busyEdge s)
  else .next (idleEdge s)

/-- An edge with `rst = 0` and `start = 1` that presents a command: an idle block accepts it (R26), a busy block drops
it and goes on (R110), and before the first reset edge the run is refused (R106). Log 7. -/
def presentCommand (op : OpCode) (opa : Word64) (opb : Word32) (v : Word64) (s : State) : Outcome :=
  if s.inited = false then .refused .beforeFirstReset
  else if s.busy then .next (busyEdge s)
  else .next (acceptEdge op opa opb v s)

/-- What a read of the `busy` port gives (R12, R19). Before the first reset edge it is UNSPECIFIED (R33). Log 15. -/
def readBusy (s : State) : Except Fault Bool :=
  if s.inited then .ok s.busy else .error (.unspecifiedRead .busy)

/-- What a read of the `done` port gives (R12, R20). Before the first reset edge it is UNSPECIFIED (R33). Log 15. -/
def readDone (s : State) : Except Fault Bool :=
  if s.inited then .ok s.done else .error (.unspecifiedRead .done)

/-- What a read of the `result` port gives: its value in a cycle where it is defined, else a fault (R12, R21, R109). -/
def readResult (s : State) : Except Fault Word64 :=
  if s.inited then
    match s.result with
    | some v => .ok v
    | none => .error (.unspecifiedRead .result)
  else .error (.unspecifiedRead .result)

/-- The outcome of a read whose value goes to the host: the block does not change (R42). Log 15. -/
def afterRead {α : Type} (r : Except Fault α) (s : State) : Outcome :=
  match r with
  | .ok _ => .next s
  | .error f => .fault f

/-- The host reads an output port (R42, R109). -/
def readPort (o : OutputPort) (s : State) : Outcome :=
  match o with
  | .busy => afterRead (readBusy s) s
  | .done => afterRead (readDone s) s
  | .result => afterRead (readResult s) s

end Sys2Proof.Machine
end

