-- ==== Sys2Proof/Machine/BitScan.lean ====
section
/-! DEFINITION. `clz_unit` and the command `CLZ` (`40_clz.md` R60 to R65, `10_state.md` R14). -/

namespace Sys2Proof.Machine

/-- `bitlength(x)`: 0 for 0, else the index of the most significant set bit plus 1 (R62). -/
def bitLength (x : Nat) : Nat := if x = 0 then 0 else x.log2 + 1

/-- `clz32(x) = 32 - bitlength(x)` (R62). -/
def clz32 (x : Word32) : Nat := 32 - bitLength x.toNat

/-- The output `count[5:0]` of `clz_unit` (R14). -/
def clzUnit (x : Word32) : BitVec 6 := BitVec.ofNat 6 (clz32 x)

/-- The result of `CLZ`, zero-extended (R54, R60). -/
def clzValue (opa : Word64) : Word64 := zext64 (clzUnit (clzOperand opa))

/-- `CLZ` (R60). -/
def execClz (opa : Word64) (opb : Word32) (s : State) : Outcome :=
  presentCommand opClz opa opb (clzValue opa) s

end Sys2Proof.Machine
end

