-- ==== Sys2Proof/Machine/Divide.lean ====
section
/-! DEFINITION. `divider_64by32` and the command `DIV` (`42_div.md` R70 to R73, `10_state.md` R16). -/

namespace Sys2Proof.Machine

/-- `div64(n, d)`: 0 for a zero divisor, else `floor(n / d)` (R71). -/
def div64 (n : Word64) (d : Word32) : Word64 :=
  if d = 0 then 0 else BitVec.ofNat 64 (n.toNat / d.toNat)

/-- The result of `DIV` (R54, R70). -/
def divValue (opa : Word64) (opb : Word32) : Word64 :=
  div64 (divOperands opa opb).1 (divOperands opa opb).2

/-- `DIV` (R70). -/
def execDiv (opa : Word64) (opb : Word32) (s : State) : Outcome :=
  presentCommand opDiv opa opb (divValue opa opb) s

end Sys2Proof.Machine
end

