-- ==== Sys2Proof/Machine/Multiply.lean ====
section
/-! DEFINITION. `mul32x32_to_64` and the command `MUL` (`41_mul.md` R66 to R69, `10_state.md` R15). -/

namespace Sys2Proof.Machine

/-- `mul64(a, b) = a * b`, exact (R67). -/
def mul64 (a b : Word32) : Word64 := BitVec.ofNat 64 (a.toNat * b.toNat)

/-- The result of `MUL` (R54, R66). -/
def mulValue (opa : Word64) (opb : Word32) : Word64 :=
  mul64 (mulOperands opa opb).1 (mulOperands opa opb).2

/-- `MUL` (R66). -/
def execMul (opa : Word64) (opb : Word32) (s : State) : Outcome :=
  presentCommand opMul opa opb (mulValue opa opb) s

end Sys2Proof.Machine
end

