-- ==== Sys2Proof/Machine/ReciprocalSqrt.lean ====
section
/-! DEFINITION. `reciprocal_sqrt_engine` and the command `RSQRT` (`43_rsqrt.md` R74 to R91, `10_state.md` R17). The
stages carry their intermediate values, as the traces of `95_test_vectors.md` list them; only the final value is
architectural (R83). -/

namespace Sys2Proof.Machine

/-- The engine's exponent, `exp = 31 - clz32(x)`, an index of the ROM (R78). -/
def exponent (x : Word32) : Fin 32 := ⟨31 - clz32 x, by omega⟩

/-- The entry after `exp`, or the constant 0 without a ROM read if `exp = 31` (R37, R80). -/
def nextEntry (rom : Rom) (e : Fin 32) : Word32 :=
  if h : e.val + 1 < 32 then romRead rom ⟨e.val + 1, h⟩ else 0

/-- The values of the interpolation stage (R80). -/
structure Interpolation where
  yNext : Word32
  delta : Word32
  frac  : Word32
  drop  : Word32
  y     : Word32
  deriving DecidableEq, Repr

/-- Linear interpolation between entry `e` and the next (R80). `frac` is computed exactly on naturals (D15), and the
product is exact (D17). The two subtractions are on naturals; for a non-increasing table neither can go below 0.
Log 6. -/
def interpolate (rom : Rom) (e : Fin 32) (x : Word32) : Interpolation :=
  let y := romRead rom e
  let yNext := nextEntry rom e
  let delta := BitVec.ofNat 32 (y.toNat - yNext.toNat)
  let frac := BitVec.ofNat 32 ((x.toNat - 2 ^ e.val) * 2 ^ 16 / 2 ^ e.val)
  let drop := trunc32 (mul64 delta frac >>> 16)
  { yNext := yNext, delta := delta, frac := frac, drop := drop, y := BitVec.ofNat 32 (y.toNat - drop.toNat) }

/-- The values of one Newton-Raphson iteration (R81). -/
structure NewtonStep where
  y2  : Word32
  xy2 : Word32
  s   : Word32
  y   : Word32
  deriving DecidableEq, Repr

/-- One Newton-Raphson iteration (R81): the shifts are on the 64-bit products before truncation, and the subtraction is
modulo 2^32 (D16). -/
def newton (x y : Word32) : NewtonStep :=
  let y2 := trunc32 (mul64 y y)
  let xy2 := trunc32 (mul64 x y2 >>> 16)
  let s := (3#32 <<< 16) - xy2
  { y2 := y2, xy2 := xy2, s := s, y := trunc32 (mul64 y s >>> 17) }

/-- The values of the general path, for `x >= 2` (R78 to R82). -/
structure EngineRun where
  exp     : Fin 32
  y0      : Word32
  interp  : Option Interpolation
  newton1 : NewtonStep
  newton2 : NewtonStep
  deriving DecidableEq, Repr

/-- The estimate the first Newton iteration starts from: the interpolated one if interpolation ran (R80). -/
def startEstimate (y0 : Word32) (interp : Option Interpolation) : Word32 :=
  match interp with
  | some k => k.y
  | none => y0

/-- The general path of the engine: estimate, interpolation unless `x` is exactly `2^exp`, and two Newton iterations
(R75, R78 to R82). -/
def engineRun (rom : Rom) (x : Word32) : EngineRun :=
  let e := exponent x
  let y0 := romRead rom e
  let interp := if x.toNat = 2 ^ e.val then none else some (interpolate rom e x)
  let n1 := newton x (startEstimate y0 interp)
  { exp := e, y0 := y0, interp := interp, newton1 := n1, newton2 := newton x n1.y }

/-- `rsqrt(x)` (R75), with its two special cases (R76, R77). -/
def rsqrt (rom : Rom) (x : Word32) : Word32 :=
  if x = 0 then 0xFFFFFFFF#32
  else if x = 1 then 65536#32
  else (engineRun rom x).newton2.y

/-- A use of one unit or of the ROM by the engine (R17, R83, R90). -/
inductive UnitUse where
  | clz (x : Word32)
  | rom (e : Nat)
  | mul (a b : Word32)
  | div (n : Word64) (d : Word32)
  deriving DecidableEq, Repr

/-- The three products of one Newton iteration from the estimate `y` (R81, R83). -/
def newtonUses (x y : Word32) (k : NewtonStep) : List UnitUse := [.mul y y, .mul x k.y2, .mul y k.s]

/-- What interpolation uses: one product, and a second ROM read unless `exp = 31` (R80, R83). -/
def interpolationUses (e : Fin 32) (k : Interpolation) : List UnitUse :=
  if e.val = 31 then [.mul k.delta k.frac] else [.rom (e.val + 1), .mul k.delta k.frac]

/-- Everything the engine uses for one input, in the order of R75 (R76, R77, R83, R90, R91). Not visible at a port.
Log 17. -/
def engineUses (rom : Rom) (x : Word32) : List UnitUse :=
  if x = 0 ∨ x = 1 then []
  else
    let r := engineRun rom x
    [.clz x, .rom r.exp.val]
      ++ (match r.interp with
          | some k => interpolationUses r.exp k
          | none => [])
      ++ newtonUses x (startEstimate r.y0 r.interp) r.newton1 ++ newtonUses x r.newton1.y r.newton2

/-- The result of `RSQRT`, zero-extended (R54, R74). -/
def rsqrtValue (rom : Rom) (opa : Word64) : Word64 := zext64 (rsqrt rom (rsqrtOperand opa))

/-- `RSQRT` (R74). -/
def execRsqrt (opa : Word64) (opb : Word32) (s : State) : Outcome :=
  presentCommand opRsqrt opa opb (rsqrtValue s.rom opa) s

end Sys2Proof.Machine
end

