-- ==== Sys2Proof/Machine/Dispatch.lean ====
section
/-! DEFINITION. One arm per command: the rising edge at which the command is presented. -/

namespace Sys2Proof.Machine

def exec (i : Instr) (s : State) : Host.Outcome State Fault Refusal :=
  match i with
  | .clz opa opb => Sys2Proof.Machine.execClz opa opb s
  | .mul opa opb => Sys2Proof.Machine.execMul opa opb s
  | .div opa opb => Sys2Proof.Machine.execDiv opa opb s
  | .rsqrt opa opb => Sys2Proof.Machine.execRsqrt opa opb s

end Sys2Proof.Machine
end

