-- ==== Sys2Proof/Machine/Edge.lean ====
section
/-! DEFINITION. One rising edge of `clk`, and the host's next event (`10_state.md` R11, R31; `20_memory.md` R42;
`60_exceptions.md` R95, R101). -/

namespace Sys2Proof.Machine

/-- One rising edge that samples the ports `p`. Reset wins over everything (R95, R102); a presented command is decoded
and run; otherwise the block goes on by itself (R31). -/
def clockEdge (p : InputPorts) (s : State) : Outcome :=
  if p.rst then .next (resetEdge s)
  else if p.start then exec (decodePorts p.op p.opa p.opb) s
  else quietEdge s

/-- The host's next event happens. With none left the clock has no further edge and nothing changes (R101). Log 2. -/
def hostEvent (s : State) : Outcome :=
  match s.inputs with
  | [] => .next s
  | .edge p :: rest => clockEdge p { s with inputs := rest }
  | .read o :: rest => readPort o { s with inputs := rest }

/-- The ports that present the command `i` for one edge (R49, R59). -/
def present (i : Instr) : InputPorts :=
  { rst := false, start := true, op := i.op, opa := i.opa, opb := i.opb }

/-- The ports with neither reset nor a command. -/
def quietPorts : InputPorts := { rst := false, start := false, op := 0, opa := 0, opb := 0 }

/-- The ports that reset the block (R59, R107). -/
def resetPorts : InputPorts := { rst := true, start := false, op := 0, opa := 0, opb := 0 }

/-- The block past its first reset with no command in flight, as accepting a command needs it (R26). In such a state
within the invariant of R33 nothing changes. Log 8. -/
def makeReady (s : State) : State :=
  { s with inited := true, busy := false, pend := none, cnt := 0 }

/-- The host's next event becomes the edge that presents the command `i`. -/
def presentNext (i : Instr) (s : State) : State :=
  { makeReady s with inputs := .edge (present i) :: s.inputs }

end Sys2Proof.Machine
end

