-- ==== Sys2Proof/Machine/Step.lean ====
section
/-! DEFINITION. The step of the machine, and the state in which the next step runs a given command word. -/

namespace Sys2Proof.Machine

/-- One step: the host's next event (`10_state.md` R31). -/
def step (s : State) : Host.Outcome State Fault Refusal := hostEvent s

/-- The block fetches nothing (`10_state.md` R23, `20_memory.md` R47): a command runs when the host presents it. This
makes the host's next event that edge, and the block ready to accept. A number that is no command word presents
nothing. Log 8. -/
def State.withFetchWord (s : State) (nbits w : Nat) : State :=
  match decodeTableWord nbits w with
  | some i => presentNext i s
  | none => s

end Sys2Proof.Machine
end

