-- ==== Sys2Proof/Machine/Assembler.lean ====
section
/-! DEFINITION. The textual form of a command and the assembler (`30_encoding.md` R57, R58). A command that does not fit
is refused by name and never truncated. What R57 leaves open about white space and digits is in log 13. -/

namespace Sys2Proof.Machine

/-- Why the assembler refuses a text (R58). -/
inductive AsmRefusal where
  /-- A literal outside the range of R57. -/
  | literalOutOfRange
  /-- An operand is missing. -/
  | missingOperand
  /-- There is an operand too many. -/
  | extraOperand
  /-- The mnemonic is not one of the four. -/
  | unknownMnemonic
  /-- An operand is no unsigned literal of R57. Log 13. -/
  | notALiteral
  deriving DecidableEq, Repr

/-- The command of a mnemonic and its operands: each goes to its field, every field the text does not name is zero
(R53, R57). -/
def fieldsOf (m : Mnemonic) (ops : List Nat) : Instr :=
  match m with
  | .clz => .clz (BitVec.ofNat 64 (ops.getD 0 0)) 0
  | .mul => .mul (BitVec.ofNat 64 (ops.getD 0 0)) (BitVec.ofNat 32 (ops.getD 1 0))
  | .div => .div (BitVec.ofNat 64 (ops.getD 0 0)) (BitVec.ofNat 32 (ops.getD 1 0))
  | .rsqrt => .rsqrt (BitVec.ofNat 64 (ops.getD 0 0)) 0

/-- The command of a line whose literals are read, or the refusal (R57, R58). -/
def assembleLine (l : AsmLine) : Except AsmRefusal Instr :=
  match lookupMnemonic l.mnemonic with
  | none => .error .unknownMnemonic
  | some m =>
    if l.operands.length < m.operandBounds.length then .error .missingOperand
    else if m.operandBounds.length < l.operands.length then .error .extraOperand
    else if l.literalsInRange then .ok (fieldsOf m l.operands)
    else .error .literalOutOfRange

/-- The value of a digit in a base of at most 16, either letter case. -/
def digitValue (base : Nat) (c : Char) : Option Nat :=
  let v :=
    if '0' ≤ c ∧ c ≤ '9' then some (c.toNat - 48)
    else if 'A' ≤ c ∧ c ≤ 'F' then some (c.toNat - 55)
    else if 'a' ≤ c ∧ c ≤ 'f' then some (c.toNat - 87)
    else none
  v.filter fun d => decide (d < base)

/-- The value of a string of digits, the most significant first, after the digits already read. -/
def readDigits (base : Nat) : Nat → List Char → Option Nat
  | acc, [] => some acc
  | acc, c :: cs =>
    match digitValue base c with
    | some d => readDigits base (acc * base + d) cs
    | none => none

/-- An unsigned literal: decimal digits, or `0x` followed by hexadecimal digits (R57). -/
def readLiteral (cs : List Char) : Option Nat :=
  match cs with
  | '0' :: 'x' :: d :: ds => readDigits 16 0 (d :: ds)
  | d :: ds => readDigits 10 0 (d :: ds)
  | [] => none

/-- The text before a comment, which runs from `;` to the end of the line (R57). -/
def stripComment (cs : List Char) : List Char := cs.takeWhile fun c => c != ';'

/-- The text without white space at either end. Log 13. -/
def trimBlank (cs : List Char) : List Char :=
  ((cs.dropWhile Char.isWhitespace).reverse.dropWhile Char.isWhitespace).reverse

/-- The pieces of a text between its commas. -/
def splitCommas : List Char → List (List Char)
  | [] => [[]]
  | c :: cs =>
    if c = ',' then [] :: splitCommas cs
    else
      match splitCommas cs with
      | p :: ps => (c :: p) :: ps
      | [] => [[c]]

/-- The literals of the pieces. An empty piece is a missing operand (R58). -/
def readOperands : List (List Char) → Except AsmRefusal (List Nat)
  | [] => .ok []
  | p :: ps =>
    if trimBlank p = [] then .error .missingOperand
    else
      match readLiteral (trimBlank p), readOperands ps with
      | some v, .ok vs => .ok (v :: vs)
      | none, _ => .error .notALiteral
      | _, .error r => .error r

/-- A line of text: a mnemonic, then operands separated by commas (R57). -/
def parseLine (text : List Char) : Except AsmRefusal AsmLine :=
  let body := trimBlank (stripComment text)
  let name := body.takeWhile fun c => !c.isWhitespace
  let rest := trimBlank (body.dropWhile fun c => !c.isWhitespace)
  if rest = [] then .ok { mnemonic := name, operands := [] }
  else
    match readOperands (splitCommas rest) with
    | .ok vs => .ok { mnemonic := name, operands := vs }
    | .error r => .error r

/-- The assembler: the command of a line of text, or the refusal (R57, R58). -/
def assemble (text : List Char) : Except AsmRefusal Instr :=
  match parseLine text with
  | .ok l => assembleLine l
  | .error r => .error r

end Sys2Proof.Machine
end

