-- ==== Sys2Proof/Machine/HostMap.lean ====
section
/-! DEFINITION. What a byte-addressed host sees of the ports through a `HOST_MAP` (`00_scope.md` R5, `20_memory.md` R39,
R43). The map is an argument, since the parameter is OPEN; the block itself has no byte order (R39), so no step reads it.
Log 11. -/

namespace Sys2Proof.Machine

/-- The byte of a port of one bit, which stands in bit 0. DESIGN CHOICE: the spec does not say what the other seven bits of
that byte hold, and the model makes them 0. Log 11. -/
def bitByte (b : Bool) : BitVec 8 := if b then 1 else 0

/-- The cells in which a host sees a port of value `v`, its bytes at the addresses given, least significant first. -/
def portCells {w : Nat} (v : BitVec w) : Nat → List Nat → List Host.Cell
  | _, [] => []
  | k, a :: rest => (a, v.extractLsb' (8 * k) 8) :: portCells v (k + 1) rest

/-- The value of a port whose bytes stand at the addresses given, least significant first; none where a byte is missing. -/
def portValue (cells : List Host.Cell) : List Nat → Option Nat
  | [] => some 0
  | a :: rest =>
    match cells.lookup a, portValue cells rest with
    | some b, some v => some (b.toNat + 2 ^ 8 * v)
    | _, _ => none

/-- The addresses of the input ports. -/
def inputAddresses (m : HostMap) : List Nat :=
  [m.rst, m.start, m.op] ++ m.opa.toList ++ m.opb.toList

/-- The cells a host writes so that the input ports hold `p`. The bits above a narrow port are 0, the model's choice.
Log 11. -/
def inputCells (m : HostMap) (p : InputPorts) : List Host.Cell :=
  [(m.rst, bitByte p.rst), (m.start, bitByte p.start), (m.op, p.op.setWidth 8)]
    ++ portCells p.opa 0 m.opa.toList ++ portCells p.opb 0 m.opb.toList

/-- The values of the input ports when the host has written `cells`: each port takes the low bits of what stands at its
addresses, and the bits above a narrow port are ignored, the model's choice. Log 11. -/
def inputPorts (m : HostMap) (cells : List Host.Cell) : Option InputPorts :=
  match portValue cells [m.rst], portValue cells [m.start], portValue cells [m.op],
    portValue cells m.opa.toList, portValue cells m.opb.toList with
  | some rst, some start, some op, some opa, some opb =>
    some { rst := rst.testBit 0, start := start.testBit 0, op := BitVec.ofNat 2 op,
           opa := BitVec.ofNat 64 opa, opb := BitVec.ofNat 32 opb }
  | _, _, _, _, _ => none

/-- The cells in which a host sees an output port, or the fault of reading a port that is UNSPECIFIED (R9, R109). In the
byte of `busy` and of `done`, bits 7:1 read as 0, the model's choice. Log 11. -/
def outputCells (m : HostMap) (o : OutputPort) (s : State) : Except Fault (List Host.Cell) :=
  match o with
  | .busy => (readBusy s).map fun b => [(m.busy, bitByte b)]
  | .done => (readDone s).map fun b => [(m.done, bitByte b)]
  | .result => (readResult s).map fun v => portCells v 0 m.result.toList

/-- What R39 recommends, without requiring it: the low half of `opa` and of `result` lies at the lower addresses. -/
def recommendedMap (m : HostMap) : Bool :=
  (List.finRange 4).all fun i => (List.finRange 4).all fun j =>
    decide (m.opa[i.val] < m.opa[j.val + 4]) && decide (m.result[i.val] < m.result[j.val + 4])

end Sys2Proof.Machine
end

