-- ==== Sys2Proof/Machine/HostSteps.lean ====
section
/-! DEFINITION. The host steps of `30_encoding.md` R59: notation for what the host does at the ports. The host's own
registers, arithmetic and branches are not the block's (R4, R59) and are not modelled. A host step that waits on `busy` or
`done` reads that port, so it faults where the port is UNSPECIFIED (R9). -/

namespace Sys2Proof.Machine

/-- The four host steps (R59). -/
inductive HostStep where
  | issue (i : Instr)
  | wait
  | read
  | reset
  deriving DecidableEq, Repr

/-- How many quiet edges a host that waits for `busy = 0` lets pass (R27, R59), or the fault of its read of `busy`. -/
def edgesUntilIdle (s : State) : Except Fault Nat :=
  match readBusy s with
  | .ok busy => .ok (if busy then s.cnt else 0)
  | .error f => .error f

/-- The edges that a host which waits for `done = 1` lets pass (R59), or the fault of its read of `done`; none for a wait
that no `done` pulse will end. -/
def edgesUntilDone (s : State) : Except Fault (Option Nat) :=
  match readDone s, readBusy s with
  | .ok done, .ok busy => .ok (if done then some 0 else if busy then some s.cnt else none)
  | .error f, _ => .error f
  | _, .error f => .error f

/-- What a host step does at the ports of a block in state `s` (R59); none for a `WAIT` without an end; the fault where
the step reads a port that is UNSPECIFIED (R9, R106). Log 14. -/
def HostStep.events (h : HostStep) (s : State) : Except Fault (Option (List HostEvent)) :=
  match h with
  | .issue i => (edgesUntilIdle s).map fun k => some (List.replicate k (.edge quietPorts) ++ [.edge (present i)])
  | .wait => (edgesUntilDone s).map fun k => k.map fun k => List.replicate k (.edge quietPorts)
  | .read => .ok (some [.read .result])
  | .reset => .ok (some [.edge resetPorts])

end Sys2Proof.Machine
end

