-- ==== Sys2Proof/Machine/OpFunction.lean ====
section
/-! DEFINITION. The operation function `F` (`30_encoding.md` R55): what a completed command publishes. -/

namespace Sys2Proof.Machine

/-- `F(op, opa, opb)` (R55), over the contents of the ROM, which the spec holds constant (R35). -/
def opFunction (rom : Rom) (op : OpCode) (opa : Word64) (opb : Word32) : Word64 :=
  if op = opClz then clzValue opa
  else if op = opMul then mulValue opa opb
  else if op = opDiv then divValue opa opb
  else rsqrtValue rom opa

end Sys2Proof.Machine
end

