-- ==== Sys2Proof/Machine/Reference.lean ====
section
/-! DEFINITION. The reference algorithms of the document (`40_clz.md` R63, `41_mul.md` R68, `42_div.md` R72). No step of
one is visible at a port (D18): the commands use the result functions, and these stand beside them. -/

namespace Sys2Proof.Machine

/-- One of the first four steps of `clz_ref` (R63): if the top `k` bits of the window are zero, count them and shift the
window up. The window is the count and the shifted word. -/
def clzRefStep (k : Nat) (w : Nat × Word32) : Nat × Word32 :=
  if w.2 >>> (32 - k) = 0 then (w.1 + k, w.2 <<< k) else w

/-- The window after the tests of the top 16, 8, 4 and 2 bits (R63). -/
def clzRefWindow (x : Word32) : Nat × Word32 :=
  clzRefStep 2 (clzRefStep 4 (clzRefStep 8 (clzRefStep 16 (0, x))))

/-- `clz_ref` (R63): the special case of 0, then the fifth test, of the top bit. -/
def clzRef (x : Word32) : Nat :=
  if x = 0 then 32
  else if (clzRefWindow x).2.getLsbD 31 then (clzRefWindow x).1 else (clzRefWindow x).1 + 1

/-- The 64-bit accumulator of `mul_ref` after its first `k` iterations (R68). -/
def mulRefLoop (a b : Word32) : Nat → Word64
  | 0 => 0
  | i + 1 => if b.getLsbD i then mulRefLoop a b i + (zext64 a <<< i) else mulRefLoop a b i

/-- `mul_ref` (R68): binary long multiplication. -/
def mulRef (a b : Word32) : Word64 := mulRefLoop a b Config.mulIters

/-- One iteration of `div_ref` for dividend bit `i` (R72), on the quotient and the 64-bit partial remainder. -/
def divRefStep (n : Word64) (d : Word32) (i : Nat) (qr : Word64 × Word64) : Word64 × Word64 :=
  let r := (qr.2 <<< 1) ||| (BitVec.ofBool (n.getLsbD i)).setWidth 64
  if (zext64 d) ≤ r then (qr.1 ||| (1#64 <<< i), r - zext64 d) else (qr.1, r)

/-- Quotient and remainder after the first `k` iterations, the most significant bit first (R72). -/
def divRefLoop (n : Word64) (d : Word32) : Nat → Word64 × Word64
  | 0 => (0, 0)
  | k + 1 => divRefStep n d (63 - k) (divRefLoop n d k)

/-- `div_ref` (R72): restoring long division, with the sentinel 0 for a zero divisor. -/
def divRef (n : Word64) (d : Word32) : Word64 :=
  if d = 0 then 0 else (divRefLoop n d Config.divIters).1

end Sys2Proof.Machine
end

