-- ==== Sys2Proof/Safety.lean ====
section
/-! DEFINITION. The invariant of `10_state.md` R33, and runs of the machine, in the terms the statements use. -/

namespace Sys2Proof.Machine

/-- The invariant of R33 with the facts it rests on. It constrains the registers only after the first reset edge (R106).
Every step keeps it. -/
structure Inv (s : State) : Prop where
  /-- Every latency is at least 1 (R27). -/
  latency   : ∀ op, 1 ≤ latencyOf s.lat op
  /-- `busy` iff `pend` is some value (R33). -/
  pendBusy  : s.inited = true → (s.busy = true ↔ s.pend.isSome = true)
  /-- `busy` iff `cnt >= 1` (R33). -/
  cntBusy   : s.inited = true → (s.busy = true ↔ 1 ≤ s.cnt)
  /-- `done` implies not `busy` (R33). -/
  doneIdle  : s.inited = true → s.done = true → s.busy = false
  /-- In the cycle of the `done` pulse `result` is defined (R27, R109). -/
  doneHas   : s.inited = true → s.done = true → s.result.isSome = true
  /-- While a command is in flight `result` is UNSPECIFIED (R21, R28). -/
  busyHides : s.inited = true → s.busy = true → s.result = none
  /-- The command in flight is latched, `pend` is its `F`, and it has at most its latency to go (R22, R26, R27). -/
  latched   : s.inited = true → s.busy = true → ∃ op a b, s.opQ = some op ∧ s.aQ = some a ∧ s.bQ = some b
    ∧ s.pend = some (opFunction s.rom op a b) ∧ s.cnt ≤ latencyOf s.lat op

/-- The machine after the host has done `events`, one step each, whatever waits after them. -/
def runEvents (events : List HostEvent) (s : State) : Outcome :=
  Host.Core.run Sys2Proof.core events.length { s with inputs := events ++ s.inputs }

/-- The machine after the rising edges that sample `ports`, one step each. -/
def runEdges (ports : List InputPorts) (s : State) : Outcome := runEvents (ports.map .edge) s

/-- None of the edges is a reset edge. -/
def NoReset (ports : List InputPorts) : Prop := ∀ p ∈ ports, p.rst = false

end Sys2Proof.Machine
end

