-- ==== Sys2Proof/Certificates/Slice0/Obligations.lean ====
section
/-! DEFINITION. The statements about the CORE block. Each says in its docstring which rules of spec/ it formalises. -/

open Sys2Proof Sys2Proof.Machine

/-! Encoding and syntax -/

/-- Words of the four operations, written out from the encoding of R50 and R51 (the examples of R60, R66, R70, R74, and
V-C14 with ignored bits set), decode to the commands they stand for. -/
def Obligations.SpecWordsDecode : Prop :=
  decodeNat 0x0000000000000303900000000 = .ok (.clz 12345 0)
  ∧ decodeNat 0x1000000000000199A0000000A = .ok (.mul 6554 10)
  ∧ decodeNat 0x2000000000001000400000064 = .ok (.div 65540 100)
  ∧ decodeNat 0x3000000000000303900000000 = .ok (.rsqrt 12345 0)
  ∧ decodeNat 0x0FFFFFFFF00000001FFFFFFFF = .ok (.clz 0xFFFFFFFF00000001 0xFFFFFFFF)

/-- Decoding an encoded command gives it back, from the canonical word and from the ports (R49, R50, R51, R56). -/
def Obligations.DecodeOfEncodeIsIdentity : Prop :=
  ∀ i : Instr, i.wellFormed = true →
    decodeNat (encode i).toNat = .ok i ∧ decodePorts i.op i.opa i.opb = i

/-- A number that decodes is the encoding of what it decodes to, so each command has one word (R50). That exactly the
numbers from 2^98 up are refused is the model's reading of R50's "its upper 2 bits are always 0" (log 9). -/
def Obligations.EncodeOfDecodeIsIdentity : Prop :=
  (∀ (n : Nat) (i : Instr), decodeNat n = .ok i → (encode i).toNat = n)
  ∧ ∀ n : Nat, decodeNat n = .error .notACommandWord ↔ 2 ^ 98 ≤ n

/-- R52: every 98-bit word decodes to exactly one of the four operations, which one the two bits of `op` alone say, and
none traps. -/
def Obligations.EveryWordIsOneCommand : Prop :=
  ∀ n : Nat, n < 2 ^ 98 → ∃ i : Instr, decodeNat n = .ok i
    ∧ ((n / 2 ^ 96 = 0 ∧ ∃ a b, i = .clz a b) ∨ (n / 2 ^ 96 = 1 ∧ ∃ a b, i = .mul a b)
      ∨ (n / 2 ^ 96 = 2 ∧ ∃ a b, i = .div a b) ∨ (n / 2 ^ 96 = 3 ∧ ∃ a b, i = .rsqrt a b))
    ∧ ∀ s : State, s.inited = true → ∃ t, exec i s = .next t

/-- R57 and R58 for a line whose literals are read: a well-formed line assembles, its literals go to the operand fields
whole and every field it does not name is zero; any other line is refused, by the name of what is wrong. That the
mnemonic is checked before the number of operands, and that before their ranges, so which name a line with two faults
gets, is the model's choice (log 13). -/
def Obligations.AssemblerNeverTruncates : Prop :=
  ∀ l : AsmLine,
    (l.wellFormed = true → ∃ i : Instr, assembleLine l = .ok i ∧ i.hasText = true
      ∧ i.opa.toNat = l.operands.getD 0 0 ∧ i.opb.toNat = l.operands.getD 1 0
      ∧ lookupMnemonic l.mnemonic = some (match i with
          | .clz _ _ => .clz
          | .mul _ _ => .mul
          | .div _ _ => .div
          | .rsqrt _ _ => .rsqrt))
    ∧ (l.knownMnemonic = false → assembleLine l = .error .unknownMnemonic)
    ∧ (∀ m, lookupMnemonic l.mnemonic = some m →
        (l.operands.length < m.operandBounds.length → assembleLine l = .error .missingOperand)
        ∧ (m.operandBounds.length < l.operands.length → assembleLine l = .error .extraOperand))
    ∧ (l.knownMnemonic = true → l.operandCountFits = true → l.literalsInRange = false →
        assembleLine l = .error .literalOutOfRange)

/-- The example of R57, and the listing of its word in 25 hexadecimal digits (R50). -/
def Obligations.ExampleTextAssembles : Prop :=
  assemble "CLZ 1".toList = .ok (.clz 1 0)
  ∧ listing (encode (.clz 1 0)) = "0000000000000000100000000".toList
  ∧ assemble "mul 0x199A, 10 ; R66".toList = .ok (.mul 6554 10)
  ∧ listing (encode (.mul 6554 10)) = "1000000000000199A0000000A".toList

/-! Reset, power-up and the invariant -/

/-- R30 and R103: a reset edge, whatever the state and the other ports, gives the reset state of R30 and leaves the ROM;
until a command is issued, no later edge pulses `done` or defines `result`. -/
def Obligations.ResetAbandonsTheCommand : Prop :=
  ∀ (s : State) (p : InputPorts), p.rst = true →
    ∃ t, runEdges [p] s = .next t
      ∧ t = { inited := true, busy := false, done := false, result := none, opQ := none, aQ := none, bQ := none,
              pend := none, cnt := 0, rom := s.rom, lat := s.lat, inputs := s.inputs }
      ∧ ∀ ports : List InputPorts, (∀ q ∈ ports, q.rst = false ∧ q.start = false) →
          runEdges ports t = .next t

/-- A run starts uninitialised (R106), and one reset edge takes it to the state right after reset (R30, R102, R107),
whatever the other ports hold. -/
def Obligations.OneResetEdgeBoots : Prop :=
  ∀ (p : InputPorts) (rest : List HostEvent), p.rst = true →
    State.reset = State.powerUp ∧ State.reset.inited = false
    ∧ step { State.reset with inputs := .edge p :: rest } = .next { State.afterReset with inputs := rest }

/-- Before the first reset edge an edge with `rst = 0` is a refusal of the run, and so is every command (R106); a read of
`result` faults (R109). That a read of `busy` and of `done` faults there too is the model's inference from R9 and R33
(log 15). -/
def Obligations.RunBeforeResetHasNoMeaning : Prop :=
  ∀ s : State, s.inited = false →
    (∀ (p : InputPorts) (rest : List HostEvent), p.rst = false →
      step { s with inputs := .edge p :: rest } = .refused .beforeFirstReset)
    ∧ (∀ i : Instr, exec i s = .refused .beforeFirstReset)
    ∧ ∀ (o : OutputPort) (rest : List HostEvent),
        step { s with inputs := .read o :: rest } = .fault (.unspecifiedRead o)

/-- The invariant of R33 holds in the state in which a run starts (R106) and right after a reset edge (R30). -/
def Obligations.ResetStateMeetsInvariant : Prop := Inv State.reset ∧ Inv State.afterReset

/-- Every step keeps the invariant of R33, from every state that meets it: `busy` iff `pend` is some value iff
`cnt >= 1`, `done` implies not `busy`, and the facts of R21, R22 and R27 that `Inv` names. -/
def Obligations.EveryStepKeepsInvariant : Prop :=
  ∀ s t : State, Inv s → step s = .next t → Inv t

/-- No step writes the estimate ROM (R35, R105) or the latencies (R5, R27), and none takes the block back before its
first reset (R33). -/
def Obligations.RomAndLatenciesNeverChange : Prop :=
  ∀ s t : State, step s = .next t → t.rom = s.rom ∧ t.lat = s.lat ∧ (s.inited = true → t.inited = true)

/-- R92, R106 and R109: past the first reset no edge stops the machine; a fault is a read of a port that is UNSPECIFIED:
any port before the first reset, else `result` where it has no value; and a refusal is an edge with `rst = 0` before the
first reset. That `busy` and `done` are UNSPECIFIED before the first reset for a read too is log 15. -/
def Obligations.OnlyUnspecifiedReadsFault : Prop :=
  ∀ s : State,
    (s.inited = true → (∀ (o : OutputPort) (rest : List HostEvent), s.inputs ≠ .read o :: rest) →
      ∃ t, step s = .next t)
    ∧ (∀ r, step s = .fault r → ∃ o rest, s.inputs = .read o :: rest ∧ r = .unspecifiedRead o
        ∧ (s.inited = false ∨ (o = .result ∧ s.result = none)))
    ∧ ∀ r, step s = .refused r → r = .beforeFirstReset ∧ s.inited = false
        ∧ ∃ p rest, s.inputs = .edge p :: rest ∧ p.rst = false

/-- R9 and R106: before the first reset edge nothing depends on what the registers hold, whichever values stand for
UNSPECIFIED there: the first event of a run has the same outcome, and the host steps do the same at the ports. Those that
wait on `busy` or `done` fault at that read, which is the model's inference (log 15). -/
def Obligations.UninitialisedRegistersDecideNothing : Prop :=
  ∀ s t : State, s.inited = false → t.inited = false → t.rom = s.rom → t.lat = s.lat → t.inputs = s.inputs →
    (s.inputs ≠ [] → step s = step t)
    ∧ (∀ h : HostStep, h.events s = h.events t)
    ∧ (∀ i : Instr, HostStep.events (.issue i) s = .error (.unspecifiedRead .busy))
    ∧ HostStep.events .wait s = .error (.unspecifiedRead .done)

/-! Edges -/

/-- R31 with the effects of R26 to R30 written out, for a block past its first reset: reset, accept, idle, complete,
hold, in that order. Every field an effect does not name is unchanged. That completion sets `cnt` to 0, which R33 asks
for, and keeps the latched command is log 12, for R27 does not list them. -/
def Obligations.EdgeFollowsPriorityOrder : Prop :=
  ∀ (s : State) (p : InputPorts) (rest : List HostEvent), s.inited = true →
    step { s with inputs := .edge p :: rest } = .next
      (if p.rst = true then
        { s with busy := false, done := false, result := none, opQ := none, aQ := none, bQ := none, pend := none,
                 cnt := 0, inputs := rest }
      else if s.busy = false ∧ p.start = true then
        { s with busy := true, done := false, result := none, opQ := some p.op, aQ := some p.opa, bQ := some p.opb,
                 pend := some (opFunction s.rom p.op p.opa p.opb), cnt := latencyOf s.lat p.op, inputs := rest }
      else if s.busy = false then
        { s with done := false, inputs := rest }
      else if s.cnt = 1 then
        { s with busy := false, done := true, result := s.pend, pend := none, cnt := 0, inputs := rest }
      else
        { s with done := false, cnt := s.cnt - 1, inputs := rest })

/-- R29: any number of edges with `rst = 0` and `start = 0`, at least one, leave an idle block as it is, but for `done`,
which is 0. So `result` keeps the last command's value. -/
def Obligations.IdleEdgesKeepResult : Prop :=
  ∀ (s : State) (ports : List InputPorts), s.inited = true → s.busy = false → ports ≠ [] →
    (∀ q ∈ ports, q.rst = false ∧ q.start = false) → runEdges ports s = .next { s with done := false }

/-- R20: after an edge `done` is 1 iff the edge was a completion edge; so, under the invariant, it is 1 for one cycle. -/
def Obligations.DoneMarksCompletionForOneCycle : Prop :=
  ∀ (s t : State) (p : InputPorts) (rest : List HostEvent), s.inited = true →
    step { s with inputs := .edge p :: rest } = .next t →
    (t.done = true ↔ p.rst = false ∧ s.busy = true ∧ s.cnt = 1)
    ∧ (Inv s → s.done = true → t.done = false)

/-- R19: `busy` is set at the accept edge and cleared at the completion edge or by reset, and it is all the block tests
before it accepts. -/
def Obligations.BusySetByAcceptClearedByCompletion : Prop :=
  ∀ (s t : State) (p : InputPorts) (rest : List HostEvent), s.inited = true →
    step { s with inputs := .edge p :: rest } = .next t →
    (t.busy = true ↔ p.rst = false ∧ ((s.busy = false ∧ p.start = true) ∨ (s.busy = true ∧ s.cnt ≠ 1)))

/-- R110: a command presented while `busy = 1` has no effect: the edge is the edge at which nothing is presented. -/
def Obligations.CommandWhileBusyIsDropped : Prop :=
  ∀ (s : State) (i : Instr), s.inited = true → s.busy = true →
    ∃ t, exec i s = .next t ∧ runEdges [quietPorts] s = .next t ∧ runEdges [present i] s = .next t

/-- R108: while a command is in flight, no port but `rst` has any effect. -/
def Obligations.PortsFreeWhileBusy : Prop :=
  ∀ (s : State) (ps qs : List InputPorts), s.inited = true → s.busy = true → ps.length = qs.length →
    ps.length ≤ s.cnt → NoReset ps → NoReset qs →
    ∃ t, runEdges ps s = .next t ∧ runEdges qs s = .next t

/-- R111: a host that keeps presenting a command has it run, completed, and at the first idle edge accepted again. -/
def Obligations.HeldStartIssuesAgain : Prop :=
  ∀ (i : Instr) (s : State), s.inited = true → s.busy = false → 1 ≤ latencyOf s.lat i.op →
    ∃ t u, exec i s = .next t ∧ runEdges (List.replicate (latencyOf s.lat i.op) (present i)) t = .next u
      ∧ u.done = true ∧ u.result = some (opFunction s.rom i.op i.opa i.opb)
      ∧ runEdges [present i] u = .next t

/-- R41: no step changes part of `result`: it keeps its value, loses it whole, or takes `pend` whole at a completion
edge. -/
def Obligations.ResultChangesOnlyAsAWhole : Prop :=
  ∀ s t : State, step s = .next t →
    t.result = s.result ∨ t.result = none
    ∨ (s.busy = true ∧ s.cnt = 1 ∧ t.done = true ∧ t.busy = false ∧ t.result = s.pend)

/-- R101: with no clock edge left, nothing changes (that the empty list of events means no edge is log 2). -/
def Obligations.NoEdgeNoChange : Prop :=
  ∀ s : State, s.inputs = [] → step s = .next s

/-- A step runs the decoded command: at an edge with `rst = 0` and `start = 1`, the step is `exec` of the command the
ports decode to, at the state without that event (R26, R56); and the step after `withFetchWord` is `exec` of the word's
command at the block made ready (log 8). -/
def Obligations.StepRunsTheDecodedCommand : Prop :=
  (∀ (s : State) (p : InputPorts) (rest : List HostEvent) (i : Instr), s.inputs = .edge p :: rest → p.rst = false →
    p.start = true → decodePorts p.op p.opa p.opb = i → step s = exec i { s with inputs := rest })
  ∧ ∀ (s : State) (nbits w : Nat) (i : Instr), decodeTableWord nbits w = some i →
      step (s.withFetchWord nbits w) = exec i { s with inited := true, busy := false, pend := none, cnt := 0 }

/-! Reading the output ports -/

/-- R42: reading an output port changes nothing of the block. -/
def Obligations.ReadingPortsChangesNothing : Prop :=
  ∀ (s t : State) (o : OutputPort) (rest : List HostEvent),
    step { s with inputs := .read o :: rest } = .next t → t = { s with inputs := rest }

/-- R109: past the first reset, a read of `result` answers its value where it is defined and faults where it is not; under
the invariant it answers in the cycle of the `done` pulse and faults while `busy = 1`; `busy` and `done` always answer. -/
def Obligations.ResultReadableOnlyWhenDefined : Prop :=
  ∀ (s : State) (rest : List HostEvent), s.inited = true →
    (∀ v, s.result = some v → readResult s = .ok v
      ∧ step { s with inputs := .read .result :: rest } = .next { s with inputs := rest })
    ∧ (s.result = none → step { s with inputs := .read .result :: rest } = .fault (.unspecifiedRead .result))
    ∧ (Inv s → s.done = true → step { s with inputs := .read .result :: rest } = .next { s with inputs := rest })
    ∧ (Inv s → s.busy = true → step { s with inputs := .read .result :: rest } = .fault (.unspecifiedRead .result))
    ∧ readBusy s = .ok s.busy ∧ readDone s = .ok s.done
    ∧ step { s with inputs := .read .busy :: rest } = .next { s with inputs := rest }
    ∧ step { s with inputs := .read .done :: rest } = .next { s with inputs := rest }

/-! Commands from accept to completion -/

/-- `CLZ` (R60, R62, with the effects of R26 and R27): an idle block accepts it, and at the `LAT_CLZ`-th edge after, with
no reset between and whatever else the ports hold, `result` is the count of leading zeros of `opa[31:0]`. Nothing else
changes; that completion sets `cnt` to 0 (R33) and keeps the latched command is log 12. -/
def Obligations.ClzCompletesWithTheCount : Prop :=
  ∀ (opa : Word64) (opb : Word32) (s : State), s.inited = true → s.busy = false → 1 ≤ s.lat.clz →
    ∃ (c : Nat) (t : State),
      (opa.toNat % 2 ^ 32 = 0 → c = 32)
      ∧ (opa.toNat % 2 ^ 32 ≠ 0 → c ≤ 31 ∧ 2 ^ (31 - c) ≤ opa.toNat % 2 ^ 32 ∧ opa.toNat % 2 ^ 32 < 2 ^ (32 - c))
      ∧ exec (.clz opa opb) s = .next t
      ∧ t = { s with busy := true, done := false, result := none, opQ := some 0b00#2, aQ := some opa, bQ := some opb,
                     pend := some (BitVec.ofNat 64 c), cnt := s.lat.clz }
      ∧ ∀ ports : List InputPorts, ports.length = s.lat.clz → NoReset ports →
          runEdges ports t = .next { t with busy := false, done := true, result := some (BitVec.ofNat 64 c),
                                            pend := none, cnt := 0 }

/-- `MUL` (R66, R67, with the effects of R26 and R27): the result is the exact product of `opa[31:0]` and `opb`. Nothing
else changes; that completion sets `cnt` to 0 (R33) and keeps the latched command is log 12. -/
def Obligations.MulCompletesWithTheProduct : Prop :=
  ∀ (opa : Word64) (opb : Word32) (s : State), s.inited = true → s.busy = false → 1 ≤ s.lat.mul →
    ∃ (v : Word64) (t : State),
      v.toNat = (opa.toNat % 2 ^ 32) * opb.toNat
      ∧ exec (.mul opa opb) s = .next t
      ∧ t = { s with busy := true, done := false, result := none, opQ := some 0b01#2, aQ := some opa, bQ := some opb,
                     pend := some v, cnt := s.lat.mul }
      ∧ ∀ ports : List InputPorts, ports.length = s.lat.mul → NoReset ports →
          runEdges ports t = .next { t with busy := false, done := true, result := some v, pend := none, cnt := 0 }

/-- `DIV` (R70, R71, with the effects of R26 and R27): the result is the floor of `opa / opb`, and 0 for a zero divisor,
without a trap (R93). Nothing else changes; that completion sets `cnt` to 0 (R33) and keeps the latched command is
log 12. -/
def Obligations.DivCompletesWithTheQuotient : Prop :=
  ∀ (opa : Word64) (opb : Word32) (s : State), s.inited = true → s.busy = false → 1 ≤ s.lat.div →
    ∃ (v : Word64) (t : State),
      (opb.toNat = 0 → v.toNat = 0)
      ∧ (opb.toNat ≠ 0 → v.toNat * opb.toNat ≤ opa.toNat ∧ opa.toNat < (v.toNat + 1) * opb.toNat)
      ∧ exec (.div opa opb) s = .next t
      ∧ t = { s with busy := true, done := false, result := none, opQ := some 0b10#2, aQ := some opa, bQ := some opb,
                     pend := some v, cnt := s.lat.div }
      ∧ ∀ ports : List InputPorts, ports.length = s.lat.div → NoReset ports →
          runEdges ports t = .next { t with busy := false, done := true, result := some v, pend := none, cnt := 0 }

/-- `RSQRT` (R74, R82, with the effects of R26 and R27): the result is `rsqrt` of `opa[31:0]`, zero-extended. Nothing
else changes; that completion sets `cnt` to 0 (R33) and keeps the latched command is log 12. What `rsqrt` is, the
statements on the engine say. -/
def Obligations.RsqrtCompletesWithTheEstimate : Prop :=
  ∀ (opa : Word64) (opb : Word32) (s : State), s.inited = true → s.busy = false → 1 ≤ s.lat.rsqrt →
    ∃ (v : Word64) (t : State),
      v.toNat = (rsqrt s.rom (BitVec.ofNat 32 opa.toNat)).toNat
      ∧ exec (.rsqrt opa opb) s = .next t
      ∧ t = { s with busy := true, done := false, result := none, opQ := some 0b11#2, aQ := some opa, bQ := some opb,
                     pend := some v, cnt := s.lat.rsqrt }
      ∧ ∀ ports : List InputPorts, ports.length = s.lat.rsqrt → NoReset ports →
          runEdges ports t = .next { t with busy := false, done := true, result := some v, pend := none, cnt := 0 }

/-- R27, R28 and R114: from an accept edge, `busy` stays 1, `done` 0 and `result` UNSPECIFIED at every edge before the
`LAT(op)`-th, which publishes `F` of the command (R55); the count depends on `op` alone. -/
def Obligations.EveryCommandTakesItsLatency : Prop :=
  ∀ (i : Instr) (s : State), s.inited = true → s.busy = false → 1 ≤ latencyOf s.lat i.op →
    ∃ t, exec i s = .next t ∧ ∀ ports : List InputPorts, NoReset ports →
      (ports.length < latencyOf s.lat i.op → ∃ u, runEdges ports t = .next u ∧ u.busy = true ∧ u.done = false
        ∧ u.result = none ∧ u.cnt = latencyOf s.lat i.op - ports.length ∧ u.pend = t.pend)
      ∧ (ports.length = latencyOf s.lat i.op → ∃ u, runEdges ports t = .next u ∧ u.busy = false ∧ u.done = true
        ∧ u.result = some (opFunction s.rom i.op i.opa i.opb) ∧ u.pend = none)

/-- R32: what a command publishes does not depend on anything that came before it: two blocks with the same ROM, whatever
else they hold, publish the same value for it. -/
def Obligations.ResultIndependentOfHistory : Prop :=
  ∀ (i : Instr) (s1 s2 : State) (ps1 ps2 : List InputPorts), s1.inited = true → s2.inited = true →
    s1.busy = false → s2.busy = false → s1.rom = s2.rom →
    1 ≤ latencyOf s1.lat i.op → 1 ≤ latencyOf s2.lat i.op →
    ps1.length = latencyOf s1.lat i.op → ps2.length = latencyOf s2.lat i.op → NoReset ps1 → NoReset ps2 →
    ∃ t1 t2 u1 u2 v, exec i s1 = .next t1 ∧ exec i s2 = .next t2
      ∧ runEdges ps1 t1 = .next u1 ∧ runEdges ps2 t2 = .next u2 ∧ u1.result = some v ∧ u2.result = some v

/-- R53: the ignored operand bits do not reach the result. -/
def Obligations.IgnoredOperandBitsDoNotMatter : Prop :=
  ∀ (rom : Rom) (opa opa' : Word64) (opb opb' : Word32), opa.toNat % 2 ^ 32 = opa'.toNat % 2 ^ 32 →
    opFunction rom 0b00#2 opa opb = opFunction rom 0b00#2 opa' opb'
    ∧ opFunction rom 0b01#2 opa opb = opFunction rom 0b01#2 opa' opb
    ∧ opFunction rom 0b11#2 opa opb = opFunction rom 0b11#2 opa' opb'

/-- R54: bits 63:6 of a `CLZ` result and bits 63:32 of an `RSQRT` result are 0. -/
def Obligations.ResultsAreZeroExtended : Prop :=
  ∀ (rom : Rom) (opa : Word64) (opb : Word32),
    (opFunction rom 0b00#2 opa opb).toNat = clz32 (BitVec.ofNat 32 opa.toNat)
    ∧ (∀ k, 6 ≤ k → (opFunction rom 0b00#2 opa opb).getLsbD k = false)
    ∧ (opFunction rom 0b11#2 opa opb).toNat = (rsqrt rom (BitVec.ofNat 32 opa.toNat)).toNat
    ∧ ∀ k, 32 ≤ k → (opFunction rom 0b11#2 opa opb).getLsbD k = false

/-! Host steps -/

/-- `ISSUE` (R59) waits out a command in flight and has its own accepted, with `F` of it to be published. The expansion
of `ISSUE` into edges, which acts at the earliest edge, is the model's choice (log 14). -/
def Obligations.IssueIsAccepted : Prop :=
  ∀ (i : Instr) (s : State), Inv s → s.inited = true →
    ∃ evs u, HostStep.events (.issue i) s = .ok (some evs) ∧ runEvents evs s = .next u
      ∧ u.busy = true ∧ u.done = false ∧ u.result = none ∧ u.opQ = some i.op ∧ u.aQ = some i.opa
      ∧ u.bQ = some i.opb ∧ u.pend = some (opFunction s.rom i.op i.opa i.opb) ∧ u.cnt = latencyOf s.lat i.op
      ∧ u.rom = s.rom ∧ u.lat = s.lat ∧ u.inputs = s.inputs

/-- `ISSUE`, `WAIT`, `READ` (R59, R109), from any state within the invariant past the first reset: the wait ends with the
`done` pulse of the command issued, and the read is legal and gives `F` of that command (R44, R55). The expansions of the
host steps into events, which act at the earliest edge, are the model's choice (log 14). -/
def Obligations.IssueWaitReadGivesTheResult : Prop :=
  ∀ (i : Instr) (s : State), Inv s → s.inited = true →
    ∃ e1 u e2 v e3, HostStep.events (.issue i) s = .ok (some e1) ∧ runEvents e1 s = .next u
      ∧ HostStep.events .wait u = .ok (some e2) ∧ runEvents e2 u = .next v
      ∧ v.done = true ∧ v.busy = false ∧ readResult v = .ok (opFunction s.rom i.op i.opa i.opb)
      ∧ HostStep.events .read v = .ok (some e3) ∧ runEvents e3 v = .next v

/-! The ports as a host sees them -/

/-- R39 and R43, for any `HOST_MAP` of the model's form (log 11) whose input ports have distinct addresses, and `result`
too: the cells in which a host writes the input ports give the block exactly those values, and the cells in which it sees
an output port give back its value, so no bit is lost, whatever the byte order. A `result` that is UNSPECIFIED is not
seen. That the byte of `busy` and of `done` holds 0 in its other seven bits, and so reads as 0 or 1, is the model's choice
(log 11). -/
def Obligations.HostMapLosesNoBit : Prop :=
  ∀ (m : HostMap) (s : State), (inputAddresses m).Nodup → m.result.toList.Nodup →
    (∀ p : InputPorts, inputPorts m (inputCells m p) = some p)
    ∧ (∀ v, readResult s = .ok v → ∃ cells, outputCells m .result s = .ok cells
        ∧ cells.map Prod.fst = m.result.toList ∧ portValue cells m.result.toList = some v.toNat)
    ∧ (∀ b, readBusy s = .ok b → ∃ cells, outputCells m .busy s = .ok cells
        ∧ portValue cells [m.busy] = some b.toNat)
    ∧ (∀ b, readDone s = .ok b → ∃ cells, outputCells m .done s = .ok cells
        ∧ portValue cells [m.done] = some b.toNat)
    ∧ ∀ f, readResult s = .error f → outputCells m .result s = .error f

/-! `clz_unit` -/

/-- R61: the count lies in 0..32, and it is 32 only for 0. -/
def Obligations.ClzCountRange : Prop :=
  ∀ x : Word32, clz32 x ≤ 32 ∧ (clz32 x = 32 ↔ x = 0)

/-- R62: `32 - bitlength(x)`, which is the number of consecutive zero bits from bit 31 down to the first 1 bit, or all 32
bits. -/
def Obligations.ClzCountsZerosFromTheTop : Prop :=
  ∀ x : Word32,
    clz32 x = 32 - (if x = 0 then 0 else Nat.log 2 x.toNat + 1)
    ∧ (∀ k, k < clz32 x → x.getLsbD (31 - k) = false)
    ∧ (clz32 x < 32 → x.getLsbD (31 - clz32 x) = true)

/-- R64: the listed values, the bracket of every nonzero input, how many inputs have each count and which, and the index
of the most significant set bit. -/
def Obligations.ClzBracketsItsOperand : Prop :=
  clz32 0 = 32 ∧ clz32 1 = 31 ∧ clz32 0x80000000 = 0
  ∧ (∀ x : Word32, x ≠ 0 → 2 ^ (31 - clz32 x) ≤ x.toNat ∧ x.toNat < 2 ^ (32 - clz32 x)
      ∧ x.getLsbD (31 - clz32 x) = true ∧ ∀ j, 31 - clz32 x < j → x.getLsbD j = false)
  ∧ ∀ c, c ≤ 31 →
      (∀ x : Word32, clz32 x = c ↔ 2 ^ (31 - c) ≤ x.toNat ∧ x.toNat < 2 ^ (32 - c))
      ∧ (Finset.univ.filter fun x : Word32 => clz32 x = c).card = 2 ^ (31 - c)

/-- R63: the reference algorithm, the five-step binary search, gives `clz32` for every input. -/
def Obligations.ClzReferenceAgrees : Prop :=
  ∀ x : Word32, clzRef x = clz32 x

/-! `mul32x32_to_64` -/

/-- R67 and R69: the product is exact and below 2^64, and its halves are the quotient and the rest by 2^32. -/
def Obligations.ProductIsExactInBothHalves : Prop :=
  ∀ a b : Word32, (mul64 a b).toNat = a.toNat * b.toNat ∧ a.toNat * b.toNat ≤ 2 ^ 64 - 2 ^ 33 + 1
    ∧ (highHalf (mul64 a b)).toNat = a.toNat * b.toNat / 2 ^ 32
    ∧ (lowHalf (mul64 a b)).toNat = a.toNat * b.toNat % 2 ^ 32

/-- R68: after `k` iterations the accumulator of the reference algorithm holds `a * b[k-1:0]`, and after all 32 the
product. -/
def Obligations.MulReferenceAgrees : Prop :=
  ∀ a b : Word32, (∀ k, k ≤ 32 → (mulRefLoop a b k).toNat = a.toNat * (b.toNat % 2 ^ k)) ∧ mulRef a b = mul64 a b

/-! `divider_64by32` -/

/-- R71 and R73: for a nonzero divisor the quotient is the unique number with `q * d <= n < (q + 1) * d`; for a zero
divisor it is 0. -/
def Obligations.QuotientIsUnique : Prop :=
  ∀ (n : Word64) (d : Word32),
    (d = 0 → div64 n d = 0)
    ∧ (d ≠ 0 → (div64 n d).toNat * d.toNat ≤ n.toNat ∧ n.toNat < ((div64 n d).toNat + 1) * d.toNat
        ∧ ∀ q : Nat, q * d.toNat ≤ n.toNat → n.toNat < (q + 1) * d.toNat → q = (div64 n d).toNat)

/-- R72: the reference algorithm gives `div64`; before each shift its remainder is below the divisor, and at the end it is
the remainder of the division. -/
def Obligations.DivReferenceAgrees : Prop :=
  ∀ (n : Word64) (d : Word32), divRef n d = div64 n d
    ∧ (d ≠ 0 → (∀ k, k ≤ 64 → (divRefLoop n d k).2.toNat < d.toNat)
        ∧ (divRefLoop n d 64).2.toNat = n.toNat % d.toNat)

/-! `reciprocal_sqrt_engine` -/

/-- R36: each entry of the default table is the integer nearest to `65536 / sqrt(2^e)`, without a tie, and for even `e` it
is exactly `2^(16 - e/2)`. -/
def Obligations.RomEntriesAreNearest : Prop :=
  (∀ e : Fin 32, |((romRead defaultTable e).toNat : ℝ) - 65536 / Real.sqrt (2 ^ e.val)| < 1 / 2)
  ∧ ∀ e : Fin 32, e.val % 2 = 0 → (romRead defaultTable e).toNat = 2 ^ (16 - e.val / 2)

/-- R38: the table is non-increasing, each entry is at least 1, and the differences run from 19195 at 0 down to 1 at 28,
29 and 30, all below 2^15. -/
def Obligations.RomIsNonIncreasing : Prop :=
  (∀ e : Fin 31, (romRead defaultTable e.succ).toNat ≤ (romRead defaultTable e.castSucc).toNat
      ∧ (romRead defaultTable e.castSucc).toNat - (romRead defaultTable e.succ).toNat ≤ 19195
      ∧ 1 ≤ (romRead defaultTable e.castSucc).toNat - (romRead defaultTable e.succ).toNat
      ∧ (romRead defaultTable e.castSucc).toNat - (romRead defaultTable e.succ).toNat < 2 ^ 15)
  ∧ (∀ e : Fin 32, 1 ≤ (romRead defaultTable e).toNat)
  ∧ (romRead defaultTable 0).toNat - (romRead defaultTable 1).toNat = 19195
  ∧ (romRead defaultTable 28).toNat - (romRead defaultTable 29).toNat = 1
  ∧ (romRead defaultTable 29).toNat - (romRead defaultTable 30).toNat = 1
  ∧ (romRead defaultTable 30).toNat - (romRead defaultTable 31).toNat = 1

/-- R76 and R77: the two special cases, and what the general path would give for 1. That no unit is used in them is said
in the model's own account of uses (log 17). -/
def Obligations.RsqrtSpecialCases : Prop :=
  ∀ rom : Rom,
    rsqrt rom 0 = 0xFFFFFFFF#32 ∧ engineUses rom 0 = []
    ∧ rsqrt rom 1 = 65536#32 ∧ engineUses rom 1 = []
    ∧ (engineRun defaultTable 1).newton1.y2 = 0 ∧ (engineRun defaultTable 1).newton1.xy2 = 0
    ∧ (engineRun defaultTable 1).newton1.y = 98304#32

/-- R78: on the general path the exponent is the index of the most significant set bit, in 1..31; `31 - clz32(x)` is 0 for
`x = 1` alone of the nonzero words. -/
def Obligations.ExponentIsTheTopBit : Prop :=
  (∀ x : Word32, 2 ≤ x.toNat → (exponent x).val = 31 - clz32 x ∧ 1 ≤ (exponent x).val ∧ (exponent x).val ≤ 31
    ∧ 2 ^ (exponent x).val ≤ x.toNat ∧ x.toNat < 2 ^ ((exponent x).val + 1))
  ∧ ∀ x : Word32, x ≠ 0 → (31 - clz32 x = 0 ↔ x = 1)

/-- R80, at the default table: interpolation runs iff `x` is not `2^exp`; its difference, fraction and product are exact
and within their bounds, and the estimate stays above the next entry and at or below its own. -/
def Obligations.InterpolationStaysBetweenEntries : Prop :=
  ∀ x : Word32, 2 ≤ x.toNat →
    let e := exponent x
    let k := interpolate defaultTable e x
    let y0 := (romRead defaultTable e).toNat
    let frac := (x.toNat - 2 ^ e.val) * 2 ^ 16 / 2 ^ e.val
    (engineRun defaultTable x).y0 = romRead defaultTable e
    ∧ (engineRun defaultTable x).interp = (if x.toNat = 2 ^ e.val then none else some k)
    ∧ (∀ h : e.val + 1 < 32, k.yNext = romRead defaultTable ⟨e.val + 1, h⟩) ∧ (e.val = 31 → k.yNext = 0)
    ∧ k.delta.toNat = y0 - k.yNext.toNat ∧ k.yNext.toNat < y0 ∧ k.delta.toNat ≤ 19195
    ∧ (e.val = 31 → k.delta.toNat = 1)
    ∧ k.frac.toNat = frac ∧ frac ≤ 65535 ∧ k.delta.toNat * frac < 2 ^ 31
    ∧ k.drop.toNat = k.delta.toNat * frac / 2 ^ 16 ∧ k.drop.toNat ≤ k.delta.toNat - 1
    ∧ k.y.toNat = y0 - k.drop.toNat ∧ k.yNext.toNat + 1 ≤ k.y.toNat ∧ k.y.toNat ≤ y0
    ∧ (16 < e.val → x.toNat - 2 ^ e.val < 2 ^ (e.val - 16) → k.frac = 0 ∧ k.y = romRead defaultTable e)

/-- R84, at the default table: in both Newton iterations no truncation discards a bit and the subtraction never wraps, so
exact arithmetic gives the same values, within the bounds listed. -/
def Obligations.NewtonLosesNothing : Prop :=
  ∀ x : Word32, 2 ≤ x.toNat →
    let r := engineRun defaultTable x
    let start := match r.interp with
      | some k => k.y.toNat
      | none => r.y0.toNat
    ∀ p : Nat × NewtonStep, p = (start, r.newton1) ∨ p = (r.newton1.y.toNat, r.newton2) →
      p.1 ≤ 46341
      ∧ p.2.y2.toNat = p.1 * p.1
      ∧ p.2.xy2.toNat = x.toNat * p.2.y2.toNat / 2 ^ 16 ∧ p.2.xy2.toNat ≤ 147455
      ∧ p.2.s.toNat = 196608 - p.2.xy2.toNat ∧ 49153 ≤ p.2.s.toNat
      ∧ p.2.y.toNat = p.1 * p.2.s.toNat / 2 ^ 17

/-- R75 and R84 together: for `x >= 2`, at the default table, `rsqrt` is the natural-number formula with no truncation:
the table entry, less the interpolation step, then two exact Newton iterations. -/
def Obligations.RsqrtIsTheExactFormula : Prop :=
  ∀ x : Word32, 2 ≤ x.toNat →
    let e := Nat.log 2 x.toNat
    let table := fun k : Nat => (defaultTable.toList.getD k 0).toNat
    let y0 := table e - (table e - table (e + 1)) * ((x.toNat - 2 ^ e) * 2 ^ 16 / 2 ^ e) / 2 ^ 16
    let newtonNat := fun y : Nat => y * (3 * 2 ^ 16 - x.toNat * (y * y) / 2 ^ 16) / 2 ^ 17
    (rsqrt defaultTable x).toNat = newtonNat (newtonNat y0)

/-- R85, at the default table: the sentinel, the unit case, and otherwise a result in 1..46341 with the maximum at 2; no
input gives 0. -/
def Obligations.RsqrtRange : Prop :=
  rsqrt defaultTable 0 = 0xFFFFFFFF#32 ∧ rsqrt defaultTable 1 = 65536#32 ∧ rsqrt defaultTable 2 = 46341#32
  ∧ (∀ x : Word32, 2 ≤ x.toNat → 1 ≤ (rsqrt defaultTable x).toNat ∧ (rsqrt defaultTable x).toNat ≤ 46341)
  ∧ ∀ x : Word32, rsqrt defaultTable x ≠ 0

/-- From R86, at the default table: at `2^n` the result is `2^(16 - n/2)` for even `n`; it is the table's value but for 7,
19, 23, 27 and 29, where it is one less; and for odd `n` from 3 on it is the floor of `65536 / sqrt(2^n)`. At `n = 1` R75
gives 46341, as R85, R86's own list and vector V-R-P1 say, which is one MORE than that floor: R86's sentence on every odd
`n` does not hold there (log 18). -/
def Obligations.RsqrtAtPowersOfTwo : Prop :=
  ∀ n : Fin 32,
    let y := (rsqrt defaultTable (BitVec.ofNat 32 (2 ^ n.val))).toNat
    let entry := (romRead defaultTable n).toNat
    (n.val % 2 = 0 → y = 2 ^ (16 - n.val / 2) ∧ y = entry)
    ∧ (n.val % 2 = 1 → n.val ≠ 1 →
        y * y * 2 ^ n.val ≤ 65536 * 65536 ∧ 65536 * 65536 < (y + 1) * (y + 1) * 2 ^ n.val)
    ∧ (n.val = 1 → y = 46341 ∧ 65536 * 65536 < y * y * 2 ^ n.val
        ∧ (y - 1) * (y - 1) * 2 ^ n.val ≤ 65536 * 65536)
    ∧ (n.val ∈ [7, 19, 23, 27, 29] → y + 1 = entry)
    ∧ (n.val ∉ [7, 19, 23, 27, 29] → y = entry)

/-- From R87, at the default table: the nine listed pairs at which the result increases, so `rsqrt` is not monotone. (That
there are no others is not stated.) -/
def Obligations.RsqrtIsNotMonotone : Prop :=
  ∀ p ∈ [(65536, 255, 256), (262144, 127, 128), (1048576, 63, 64), (4194304, 31, 32), (16777216, 15, 16),
         (67108864, 7, 8), (201326592, 3, 4), (268435456, 3, 4), (1073741824, 1, 2)],
    (rsqrt defaultTable (BitVec.ofNat 32 (p.1 - 1))).toNat = p.2.1
    ∧ (rsqrt defaultTable (BitVec.ofNat 32 p.1)).toNat = p.2.2

/-- R83, R90 and R91, with the model's account of what the engine uses (log 17): for `x >= 2` exactly one `clz32`, of `x`;
one or two ROM reads, two only if interpolation runs; six Newton products and at most one for interpolation; never the
divider. -/
def Obligations.EngineUsesAreBounded : Prop :=
  ∀ (rom : Rom) (x : Word32), 2 ≤ x.toNat →
    let uses := engineUses rom x
    let clzs := uses.filter fun u => match u with
      | .clz _ => true
      | _ => false
    let roms := uses.filter fun u => match u with
      | .rom _ => true
      | _ => false
    let muls := uses.filter fun u => match u with
      | .mul _ _ => true
      | _ => false
    let run := (engineRun rom x).interp.isSome
    clzs = [.clz x]
    ∧ (roms = [.rom (exponent x).val]
        ∨ (run = true ∧ (exponent x).val ≤ 30 ∧ roms = [.rom (exponent x).val, .rom ((exponent x).val + 1)]))
    ∧ muls.length = (if run = true then 7 else 6)
    ∧ ∀ n d, UnitUse.div n d ∉ uses

/-- R89, at the default table: for every `x >= 2` the result is within 10% of the true value, with a floor of 2 units. -/
def Obligations.RsqrtWithinTolerance : Prop :=
  ∀ x : Word32, 2 ≤ x.toNat →
    |((rsqrt defaultTable x).toNat : ℝ) - 65536 / Real.sqrt x.toNat| ≤ max (0.10 * (65536 / Real.sqrt x.toNat)) 2
end

