-- ==== Sys2Proof/Laws/HostMap.lean ====
section
/-! SUPPORT. What a host reads back through a `HOST_MAP` is what stands at the ports. -/

namespace Sys2Proof.Machine

/-- With distinct addresses, an address gives the byte of its cell. -/
theorem lookup_of_mem {cells : List Host.Cell} (hn : (cells.map Prod.fst).Nodup) {a : Nat} {b : BitVec 8}
    (h : (a, b) ∈ cells) : cells.lookup a = some b := by
  induction cells with
  | nil => simp at h
  | cons c cs ih =>
    obtain ⟨a', b'⟩ := c
    simp only [List.map_cons, List.nodup_cons] at hn
    rcases List.mem_cons.mp h with h | h
    · cases h; simp
    · have hne : a ≠ a' := fun e => hn.1 (e ▸ List.mem_map_of_mem h)
      rw [List.lookup_cons, beq_false_of_ne hne]
      exact ih hn.2 h

@[simp] theorem map_fst_portCells {w : Nat} (v : BitVec w) (k : Nat) (addrs : List Nat) :
    (portCells v k addrs).map Prod.fst = addrs := by
  induction addrs generalizing k with
  | nil => rfl
  | cons a rest ih => simp [portCells, ih]

/-- Where cells with distinct addresses hold those of a port from byte `k` on, its bytes from `k` on are read back. -/
theorem portValue_of_portCells {w : Nat} (v : BitVec w) {cells : List Host.Cell} (hn : (cells.map Prod.fst).Nodup)
    (k : Nat) (addrs : List Nat) (h : ∀ c ∈ portCells v k addrs, c ∈ cells) :
    portValue cells addrs = some (v.toNat / 2 ^ (8 * k) % 2 ^ (8 * addrs.length)) := by
  induction addrs generalizing k with
  | nil => simp [portValue, Nat.mod_one]
  | cons a rest ih =>
    rw [portCells, List.forall_mem_cons] at h
    rw [portValue, lookup_of_mem hn h.1, ih (k + 1) h.2]
    simp only [Option.some.injEq, BitVec.extractLsb'_toNat, Nat.shiftRight_eq_div_pow, List.length_cons]
    rw [Nat.mul_add, Nat.mul_add, Nat.pow_add, ← Nat.div_div_eq_div_mul, Nat.add_comm (8 * _), Nat.pow_add]
    exact (Nat.mod_mul).symm

/-- The addresses of the cells a host writes are those of the input ports. -/
@[simp] theorem map_fst_inputCells (m : HostMap) (p : InputPorts) :
    (inputCells m p).map Prod.fst = inputAddresses m := by
  simp [inputCells, inputAddresses]

end Sys2Proof.Machine
end

