-- ==== Sys2Proof/Laws/State.lean ====
section
/-! SUPPORT. One lemma per field per update of the state, so that no proof unfolds a record update. -/

namespace Sys2Proof.Machine

section resetEdgeFields
variable (s : State)

@[simp] theorem resetEdge_inited : (resetEdge s).inited = true := rfl
@[simp] theorem resetEdge_busy : (resetEdge s).busy = false := rfl
@[simp] theorem resetEdge_done : (resetEdge s).done = false := rfl
@[simp] theorem resetEdge_result : (resetEdge s).result = none := rfl
@[simp] theorem resetEdge_opQ : (resetEdge s).opQ = none := rfl
@[simp] theorem resetEdge_aQ : (resetEdge s).aQ = none := rfl
@[simp] theorem resetEdge_bQ : (resetEdge s).bQ = none := rfl
@[simp] theorem resetEdge_pend : (resetEdge s).pend = none := rfl
@[simp] theorem resetEdge_cnt : (resetEdge s).cnt = 0 := rfl
@[simp] theorem resetEdge_rom : (resetEdge s).rom = s.rom := rfl
@[simp] theorem resetEdge_lat : (resetEdge s).lat = s.lat := rfl
@[simp] theorem resetEdge_inputs : (resetEdge s).inputs = s.inputs := rfl

end resetEdgeFields

section acceptEdgeFields
variable (op : OpCode) (opa : Word64) (opb : Word32) (v : Word64) (s : State)

@[simp] theorem acceptEdge_inited : (acceptEdge op opa opb v s).inited = s.inited := rfl
@[simp] theorem acceptEdge_busy : (acceptEdge op opa opb v s).busy = true := rfl
@[simp] theorem acceptEdge_done : (acceptEdge op opa opb v s).done = false := rfl
@[simp] theorem acceptEdge_result : (acceptEdge op opa opb v s).result = none := rfl
@[simp] theorem acceptEdge_opQ : (acceptEdge op opa opb v s).opQ = some op := rfl
@[simp] theorem acceptEdge_aQ : (acceptEdge op opa opb v s).aQ = some opa := rfl
@[simp] theorem acceptEdge_bQ : (acceptEdge op opa opb v s).bQ = some opb := rfl
@[simp] theorem acceptEdge_pend : (acceptEdge op opa opb v s).pend = some v := rfl
@[simp] theorem acceptEdge_cnt : (acceptEdge op opa opb v s).cnt = latencyOf s.lat op := rfl
@[simp] theorem acceptEdge_rom : (acceptEdge op opa opb v s).rom = s.rom := rfl
@[simp] theorem acceptEdge_lat : (acceptEdge op opa opb v s).lat = s.lat := rfl
@[simp] theorem acceptEdge_inputs : (acceptEdge op opa opb v s).inputs = s.inputs := rfl

end acceptEdgeFields

section idleEdgeFields
variable (s : State)

@[simp] theorem idleEdge_inited : (idleEdge s).inited = s.inited := rfl
@[simp] theorem idleEdge_busy : (idleEdge s).busy = s.busy := rfl
@[simp] theorem idleEdge_done : (idleEdge s).done = false := rfl
@[simp] theorem idleEdge_result : (idleEdge s).result = s.result := rfl
@[simp] theorem idleEdge_opQ : (idleEdge s).opQ = s.opQ := rfl
@[simp] theorem idleEdge_aQ : (idleEdge s).aQ = s.aQ := rfl
@[simp] theorem idleEdge_bQ : (idleEdge s).bQ = s.bQ := rfl
@[simp] theorem idleEdge_pend : (idleEdge s).pend = s.pend := rfl
@[simp] theorem idleEdge_cnt : (idleEdge s).cnt = s.cnt := rfl
@[simp] theorem idleEdge_rom : (idleEdge s).rom = s.rom := rfl
@[simp] theorem idleEdge_lat : (idleEdge s).lat = s.lat := rfl
@[simp] theorem idleEdge_inputs : (idleEdge s).inputs = s.inputs := rfl

end idleEdgeFields

section completeEdgeFields
variable (s : State)

@[simp] theorem completeEdge_inited : (completeEdge s).inited = s.inited := rfl
@[simp] theorem completeEdge_busy : (completeEdge s).busy = false := rfl
@[simp] theorem completeEdge_done : (completeEdge s).done = true := rfl
@[simp] theorem completeEdge_result : (completeEdge s).result = s.pend := rfl
@[simp] theorem completeEdge_opQ : (completeEdge s).opQ = s.opQ := rfl
@[simp] theorem completeEdge_aQ : (completeEdge s).aQ = s.aQ := rfl
@[simp] theorem completeEdge_bQ : (completeEdge s).bQ = s.bQ := rfl
@[simp] theorem completeEdge_pend : (completeEdge s).pend = none := rfl
@[simp] theorem completeEdge_cnt : (completeEdge s).cnt = 0 := rfl
@[simp] theorem completeEdge_rom : (completeEdge s).rom = s.rom := rfl
@[simp] theorem completeEdge_lat : (completeEdge s).lat = s.lat := rfl
@[simp] theorem completeEdge_inputs : (completeEdge s).inputs = s.inputs := rfl

end completeEdgeFields

section holdEdgeFields
variable (s : State)

@[simp] theorem holdEdge_inited : (holdEdge s).inited = s.inited := rfl
@[simp] theorem holdEdge_busy : (holdEdge s).busy = s.busy := rfl
@[simp] theorem holdEdge_done : (holdEdge s).done = false := rfl
@[simp] theorem holdEdge_result : (holdEdge s).result = s.result := rfl
@[simp] theorem holdEdge_opQ : (holdEdge s).opQ = s.opQ := rfl
@[simp] theorem holdEdge_aQ : (holdEdge s).aQ = s.aQ := rfl
@[simp] theorem holdEdge_bQ : (holdEdge s).bQ = s.bQ := rfl
@[simp] theorem holdEdge_pend : (holdEdge s).pend = s.pend := rfl
@[simp] theorem holdEdge_cnt : (holdEdge s).cnt = s.cnt - 1 := rfl
@[simp] theorem holdEdge_rom : (holdEdge s).rom = s.rom := rfl
@[simp] theorem holdEdge_lat : (holdEdge s).lat = s.lat := rfl
@[simp] theorem holdEdge_inputs : (holdEdge s).inputs = s.inputs := rfl

end holdEdgeFields

section makeReadyFields
variable (s : State)

@[simp] theorem makeReady_inited : (makeReady s).inited = true := rfl
@[simp] theorem makeReady_busy : (makeReady s).busy = false := rfl
@[simp] theorem makeReady_done : (makeReady s).done = s.done := rfl
@[simp] theorem makeReady_result : (makeReady s).result = s.result := rfl
@[simp] theorem makeReady_opQ : (makeReady s).opQ = s.opQ := rfl
@[simp] theorem makeReady_aQ : (makeReady s).aQ = s.aQ := rfl
@[simp] theorem makeReady_bQ : (makeReady s).bQ = s.bQ := rfl
@[simp] theorem makeReady_pend : (makeReady s).pend = none := rfl
@[simp] theorem makeReady_cnt : (makeReady s).cnt = 0 := rfl
@[simp] theorem makeReady_rom : (makeReady s).rom = s.rom := rfl
@[simp] theorem makeReady_lat : (makeReady s).lat = s.lat := rfl
@[simp] theorem makeReady_inputs : (makeReady s).inputs = s.inputs := rfl

end makeReadyFields

section presentNextFields
variable (i : Instr) (s : State)

@[simp] theorem presentNext_inited : (presentNext i s).inited = true := rfl
@[simp] theorem presentNext_busy : (presentNext i s).busy = false := rfl
@[simp] theorem presentNext_done : (presentNext i s).done = s.done := rfl
@[simp] theorem presentNext_result : (presentNext i s).result = s.result := rfl
@[simp] theorem presentNext_opQ : (presentNext i s).opQ = s.opQ := rfl
@[simp] theorem presentNext_aQ : (presentNext i s).aQ = s.aQ := rfl
@[simp] theorem presentNext_bQ : (presentNext i s).bQ = s.bQ := rfl
@[simp] theorem presentNext_pend : (presentNext i s).pend = none := rfl
@[simp] theorem presentNext_cnt : (presentNext i s).cnt = 0 := rfl
@[simp] theorem presentNext_rom : (presentNext i s).rom = s.rom := rfl
@[simp] theorem presentNext_lat : (presentNext i s).lat = s.lat := rfl
@[simp] theorem presentNext_inputs : (presentNext i s).inputs = .edge (present i) :: s.inputs := rfl

end presentNextFields

end Sys2Proof.Machine
end

