-- ==== Sys2Proof/Laws/Ops.lean ====
section
/-! SUPPORT. What each shared operation can do, said once: commands, edges, host events, steps and runs. -/

namespace Sys2Proof.Machine

/-! Encoding of the operation, and latencies -/

@[simp] theorem latencyOf_clz (lat : Latencies) : latencyOf lat opClz = lat.clz := rfl

@[simp] theorem latencyOf_mul (lat : Latencies) : latencyOf lat opMul = lat.mul := rfl

@[simp] theorem latencyOf_div (lat : Latencies) : latencyOf lat opDiv = lat.div := rfl

@[simp] theorem latencyOf_rsqrt (lat : Latencies) : latencyOf lat opRsqrt = lat.rsqrt := rfl

/-- The four codes are all there are (R52). -/
theorem opCode_cases (op : OpCode) : op = opClz ∨ op = opMul ∨ op = opDiv ∨ op = opRsqrt := by
  revert op; decide

@[simp] theorem op_decodePorts (op : OpCode) (opa : Word64) (opb : Word32) : (decodePorts op opa opb).op = op := by
  obtain rfl | rfl | rfl | rfl := opCode_cases op <;> rfl

@[simp] theorem opa_decodePorts (op : OpCode) (opa : Word64) (opb : Word32) : (decodePorts op opa opb).opa = opa := by
  obtain rfl | rfl | rfl | rfl := opCode_cases op <;> rfl

@[simp] theorem opb_decodePorts (op : OpCode) (opa : Word64) (opb : Word32) : (decodePorts op opa opb).opb = opb := by
  obtain rfl | rfl | rfl | rfl := opCode_cases op <;> rfl

/-- `exec` of any command is its presentation with the value of `F` (R26, R55). -/
theorem exec_eq_presentCommand (i : Instr) (s : State) :
    exec i s = presentCommand i.op i.opa i.opb (opFunction s.rom i.op i.opa i.opb) s := by
  cases i <;> rfl

/-! Presenting a command, and the quiet edge -/

theorem presentCommand_uninit {op opa opb v} {s : State} (h : s.inited = false) :
    presentCommand op opa opb v s = .refused .beforeFirstReset := by simp [presentCommand, h]

theorem presentCommand_busy {op opa opb v} {s : State} (hi : s.inited = true) (hb : s.busy = true) :
    presentCommand op opa opb v s = .next (busyEdge s) := by simp [presentCommand, hi, hb]

theorem presentCommand_idle {op opa opb v} {s : State} (hi : s.inited = true) (hb : s.busy = false) :
    presentCommand op opa opb v s = .next (acceptEdge op opa opb v s) := by simp [presentCommand, hi, hb]

theorem exec_uninit {i : Instr} {s : State} (h : s.inited = false) : exec i s = .refused .beforeFirstReset := by
  rw [exec_eq_presentCommand, presentCommand_uninit h]

theorem exec_busy {i : Instr} {s : State} (hi : s.inited = true) (hb : s.busy = true) :
    exec i s = .next (busyEdge s) := by
  rw [exec_eq_presentCommand, presentCommand_busy hi hb]

theorem exec_idle {i : Instr} {s : State} (hi : s.inited = true) (hb : s.busy = false) :
    exec i s = .next (acceptEdge i.op i.opa i.opb (opFunction s.rom i.op i.opa i.opb) s) := by
  rw [exec_eq_presentCommand, presentCommand_idle hi hb]

theorem quietEdge_uninit {s : State} (h : s.inited = false) : quietEdge s = .refused .beforeFirstReset := by
  simp [quietEdge, h]

theorem quietEdge_busy {s : State} (hi : s.inited = true) (hb : s.busy = true) :
    quietEdge s = .next (busyEdge s) := by simp [quietEdge, hi, hb]

theorem quietEdge_idle {s : State} (hi : s.inited = true) (hb : s.busy = false) :
    quietEdge s = .next (idleEdge s) := by simp [quietEdge, hi, hb]

theorem busyEdge_last {s : State} (h : s.cnt = 1) : busyEdge s = completeEdge s := by simp [busyEdge, h]

theorem busyEdge_more {s : State} (h : s.cnt ≠ 1) : busyEdge s = holdEdge s := by simp [busyEdge, h]

/-! One rising edge -/

theorem clockEdge_reset {p : InputPorts} {s : State} (h : p.rst = true) : clockEdge p s = .next (resetEdge s) := by
  simp [clockEdge, h]

theorem clockEdge_uninit {p : InputPorts} {s : State} (hp : p.rst = false) (hi : s.inited = false) :
    clockEdge p s = .refused .beforeFirstReset := by
  cases hs : p.start <;> simp [clockEdge, hp, hs, quietEdge_uninit hi, exec_uninit hi]

theorem clockEdge_busy {p : InputPorts} {s : State} (hp : p.rst = false) (hi : s.inited = true)
    (hb : s.busy = true) : clockEdge p s = .next (busyEdge s) := by
  cases hs : p.start <;> simp [clockEdge, hp, hs, quietEdge_busy hi hb, exec_busy hi hb]

theorem clockEdge_accept {p : InputPorts} {s : State} (hp : p.rst = false) (hs : p.start = true)
    (hi : s.inited = true) (hb : s.busy = false) :
    clockEdge p s = .next (acceptEdge p.op p.opa p.opb (opFunction s.rom p.op p.opa p.opb) s) := by
  simp [clockEdge, hp, hs, exec_idle hi hb]

theorem clockEdge_idle {p : InputPorts} {s : State} (hp : p.rst = false) (hs : p.start = false)
    (hi : s.inited = true) (hb : s.busy = false) : clockEdge p s = .next (idleEdge s) := by
  simp [clockEdge, hp, hs, quietEdge_idle hi hb]

/-- Everything a rising edge can do when it answers a next state (R31). -/
theorem clockEdge_cases {p : InputPorts} {s t : State} (h : clockEdge p s = .next t) :
    (p.rst = true ∧ t = resetEdge s)
    ∨ (p.rst = false ∧ s.inited = true
        ∧ ((s.busy = false ∧ p.start = true
              ∧ t = acceptEdge p.op p.opa p.opb (opFunction s.rom p.op p.opa p.opb) s)
          ∨ (s.busy = false ∧ p.start = false ∧ t = idleEdge s)
          ∨ (s.busy = true ∧ s.cnt = 1 ∧ t = completeEdge s)
          ∨ (s.busy = true ∧ s.cnt ≠ 1 ∧ t = holdEdge s))) := by
  cases hr : p.rst with
  | true => rw [clockEdge_reset hr] at h; cases h; exact .inl ⟨rfl, rfl⟩
  | false =>
    refine .inr ⟨rfl, ?_⟩
    cases hi : s.inited with
    | false => rw [clockEdge_uninit hr hi] at h; cases h
    | true =>
      refine ⟨rfl, ?_⟩
      cases hb : s.busy with
      | true =>
        rw [clockEdge_busy hr hi hb] at h; cases h
        by_cases hc : s.cnt = 1
        · simp [hc, busyEdge_last hc]
        · simp [hc, busyEdge_more hc]
      | false =>
        cases hs : p.start with
        | true => rw [clockEdge_accept hr hs hi hb] at h; cases h; simp
        | false => rw [clockEdge_idle hr hs hi hb] at h; cases h; simp

/-- Past the first reset, a rising edge answers a next state, which is past it too (R92). -/
theorem clockEdge_next (p : InputPorts) {s : State} (hi : s.inited = true) :
    ∃ t, clockEdge p s = .next t ∧ t.inited = true := by
  obtain hr | hr := Bool.eq_false_or_eq_true p.rst
  · exact ⟨_, clockEdge_reset hr, rfl⟩
  obtain hb | hb := Bool.eq_false_or_eq_true s.busy
  · refine ⟨_, clockEdge_busy hr hi hb, ?_⟩
    by_cases hc : s.cnt = 1
    · rw [busyEdge_last hc]; exact hi
    · rw [busyEdge_more hc]; exact hi
  obtain hs | hs := Bool.eq_false_or_eq_true p.start
  · exact ⟨_, clockEdge_accept hr hs hi hb, hi⟩
  · exact ⟨_, clockEdge_idle hr hs hi hb, hi⟩

/-- A rising edge never faults (R92). -/
theorem clockEdge_ne_fault (p : InputPorts) (s : State) (r : Fault) : clockEdge p s ≠ .fault r := by
  intro h
  obtain hi | hi := Bool.eq_false_or_eq_true s.inited
  · obtain ⟨t, ht, _⟩ := clockEdge_next p hi
    rw [ht] at h; cases h
  · obtain hr | hr := Bool.eq_false_or_eq_true p.rst
    · rw [clockEdge_reset hr] at h; cases h
    · rw [clockEdge_uninit hr hi] at h; cases h

/-- A rising edge is refused only with `rst = 0` before the first reset (R106). -/
theorem clockEdge_refused {p : InputPorts} {s : State} {r : Refusal} (h : clockEdge p s = .refused r) :
    r = .beforeFirstReset ∧ s.inited = false ∧ p.rst = false := by
  obtain hi | hi := Bool.eq_false_or_eq_true s.inited
  · obtain ⟨t, ht, _⟩ := clockEdge_next p hi
    rw [ht] at h; cases h
  · obtain hr | hr := Bool.eq_false_or_eq_true p.rst
    · rw [clockEdge_reset hr] at h; cases h
    · rw [clockEdge_uninit hr hi] at h; cases h; exact ⟨rfl, hi, hr⟩

/-! Reads of output ports -/

/-- A read that answers changes nothing (R42). -/
theorem readPort_next {o : OutputPort} {s t : State} (h : readPort o s = .next t) : t = s := by
  cases o <;> simp only [readPort, afterRead] at h <;> split at h <;> cases h <;> rfl

/-- Past the first reset the status ports can be read (R12), before it they are UNSPECIFIED (R9, R106). -/
theorem readBusy_inited {s : State} (h : s.inited = true) : readBusy s = .ok s.busy := by simp [readBusy, h]

theorem readDone_inited {s : State} (h : s.inited = true) : readDone s = .ok s.done := by simp [readDone, h]

theorem readBusy_uninit {s : State} (h : s.inited = false) : readBusy s = .error (.unspecifiedRead .busy) := by
  simp [readBusy, h]

theorem readDone_uninit {s : State} (h : s.inited = false) : readDone s = .error (.unspecifiedRead .done) := by
  simp [readDone, h]

/-- A read faults only where its port is UNSPECIFIED, and its only fault is the one of its own port (R109). -/
theorem readPort_fault {o : OutputPort} {s : State} {r : Fault} (h : readPort o s = .fault r) :
    r = .unspecifiedRead o ∧ (s.inited = false ∨ (o = .result ∧ s.result = none)) := by
  by_cases hi : s.inited = true
  · cases o with
    | busy => simp [readPort, afterRead, readBusy, hi] at h
    | done => simp [readPort, afterRead, readDone, hi] at h
    | result =>
      cases hr : s.result <;> simp [readPort, afterRead, readResult, hi, hr] at h
      exact ⟨h.symm, .inr ⟨rfl, rfl⟩⟩
  · have hf : s.inited = false := by simpa using hi
    refine ⟨?_, .inl hf⟩
    cases o <;> simp [readPort, afterRead, readBusy, readDone, readResult, hi] at h <;> exact h.symm

theorem readPort_ne_refused (o : OutputPort) (s : State) (r : Refusal) : readPort o s ≠ .refused r := by
  intro h
  cases o <;> simp only [readPort, afterRead] at h <;> split at h <;> cases h

theorem readPort_uninit {o : OutputPort} {s : State} (h : s.inited = false) :
    readPort o s = .fault (.unspecifiedRead o) := by
  cases o <;> simp [readPort, afterRead, readBusy, readDone, readResult, h]

/-! One step -/

theorem step_nil {s : State} (h : s.inputs = []) : step s = .next s := by simp [step, hostEvent, h]

theorem step_edge {s : State} {p : InputPorts} {rest : List HostEvent} (h : s.inputs = .edge p :: rest) :
    step s = clockEdge p { s with inputs := rest } := by simp [step, hostEvent, h]

theorem step_read {s : State} {o : OutputPort} {rest : List HostEvent} (h : s.inputs = .read o :: rest) :
    step s = readPort o { s with inputs := rest } := by simp [step, hostEvent, h]

theorem step_with_edge (s : State) (p : InputPorts) (rest : List HostEvent) :
    step { s with inputs := .edge p :: rest } = clockEdge p { s with inputs := rest } := rfl

theorem step_with_read (s : State) (o : OutputPort) (rest : List HostEvent) :
    step { s with inputs := .read o :: rest } = readPort o { s with inputs := rest } := rfl

/-- Everything a step can do when it answers a next state. -/
theorem step_cases {s t : State} (h : step s = .next t) :
    (s.inputs = [] ∧ t = s)
    ∨ (∃ p rest, s.inputs = .edge p :: rest ∧ clockEdge p { s with inputs := rest } = .next t)
    ∨ (∃ o rest, s.inputs = .read o :: rest ∧ t = { s with inputs := rest }) := by
  cases hin : s.inputs with
  | nil => rw [step_nil hin] at h; cases h; exact .inl ⟨rfl, rfl⟩
  | cons ev rest =>
    cases ev with
    | edge p => rw [step_edge hin] at h; exact .inr (.inl ⟨p, rest, rfl, h⟩)
    | read o => rw [step_read hin] at h; exact .inr (.inr ⟨o, rest, rfl, readPort_next h⟩)

/-! Runs -/

@[simp] theorem runEvents_nil (s : State) : runEvents [] s = .next s := rfl

/-- A run of several events is the first event's step and then the run of the others. -/
theorem runEvents_cons_next {ev : HostEvent} {evs : List HostEvent} {s t : State}
    (h : step { s with inputs := ev :: (evs ++ s.inputs) } = .next { t with inputs := evs ++ t.inputs }) :
    runEvents (ev :: evs) s = runEvents evs t := by
  have hc : Sys2Proof.core.step { s with inputs := ev :: (evs ++ s.inputs) }
      = .next { t with inputs := evs ++ t.inputs } := h
  show Host.Core.run Sys2Proof.core (evs.length + 1) { s with inputs := ev :: (evs ++ s.inputs) } = _
  simp only [Host.Core.run, hc]
  rfl

/-- A read event that answers leaves the machine as it was (R42). -/
theorem runEvents_read {o : OutputPort} {s : State} (h : readPort o s = .next s) :
    runEvents [.read o] s = .next s := by
  have hs : step { s with inputs := .read o :: ([] ++ s.inputs) } = .next { s with inputs := [] ++ s.inputs } := by
    rw [step_with_read]; exact h
  exact runEvents_cons_next (evs := []) (t := s) hs

/-- An edge does not touch the events that wait. -/
theorem clockEdge_inputs {p : InputPorts} {s t : State} (h : clockEdge p s = .next t) : t.inputs = s.inputs := by
  obtain ⟨_, rfl⟩ | ⟨_, _, ⟨_, _, rfl⟩ | ⟨_, _, rfl⟩ | ⟨_, _, rfl⟩ | ⟨_, _, rfl⟩⟩ := clockEdge_cases h <;> rfl

/-- What an outcome leaves, with other events waiting. -/
def withInputs (evs : List HostEvent) : Outcome → Outcome
  | .next t => .next { t with inputs := evs }
  | .fault r => .fault r
  | .refused r => .refused r

/-- An edge does not read the events that wait. -/
theorem clockEdge_withInputs (p : InputPorts) (s : State) (evs : List HostEvent) :
    clockEdge p { s with inputs := evs } = withInputs evs (clockEdge p s) := by
  obtain hr | hr := Bool.eq_false_or_eq_true p.rst
  · rw [clockEdge_reset hr, clockEdge_reset hr]; rfl
  obtain hi | hi := Bool.eq_false_or_eq_true s.inited
  · obtain hb | hb := Bool.eq_false_or_eq_true s.busy
    · rw [clockEdge_busy hr hi hb, clockEdge_busy hr (s := { s with inputs := evs }) hi hb]
      by_cases hc : s.cnt = 1
      · rw [busyEdge_last hc, busyEdge_last (s := { s with inputs := evs }) hc]; rfl
      · rw [busyEdge_more hc, busyEdge_more (s := { s with inputs := evs }) hc]; rfl
    · obtain hs | hs := Bool.eq_false_or_eq_true p.start
      · rw [clockEdge_accept hr hs hi hb, clockEdge_accept hr hs (s := { s with inputs := evs }) hi hb]; rfl
      · rw [clockEdge_idle hr hs hi hb, clockEdge_idle hr hs (s := { s with inputs := evs }) hi hb]; rfl
  · rw [clockEdge_uninit hr hi, clockEdge_uninit hr (s := { s with inputs := evs }) hi]; rfl

@[simp] theorem runEdges_nil (s : State) : runEdges [] s = .next s := rfl

/-- A run of several edges is the first edge and then the run of the others. -/
theorem runEdges_cons_next {p : InputPorts} {ps : List InputPorts} {s t : State} (h : clockEdge p s = .next t) :
    runEdges (p :: ps) s = runEdges ps t := by
  have hin := clockEdge_inputs h
  refine runEvents_cons_next ?_
  rw [step_edge rfl]
  show clockEdge p { s with inputs := ps.map .edge ++ s.inputs } = _
  rw [clockEdge_withInputs, h, hin]; rfl

/-- Past the first reset, a run of edges splits anywhere. -/
theorem runEdges_append {ps qs : List InputPorts} {s t : State} (hi : s.inited = true)
    (h : runEdges ps s = .next t) : runEdges (ps ++ qs) s = runEdges qs t := by
  induction ps generalizing s with
  | nil => cases h; rfl
  | cons p ps ih =>
    obtain ⟨u, hu, hui⟩ := clockEdge_next p hi
    rw [runEdges_cons_next hu] at h
    rw [List.cons_append, runEdges_cons_next hu, ih hui h]

/-- While a command is in flight and edges are left before its completion, a run only counts them off (R28). -/
theorem runEdges_hold {ps : List InputPorts} {s : State} (hi : s.inited = true) (hb : s.busy = true)
    (hlen : ps.length < s.cnt) (hps : NoReset ps) (hne : ps ≠ []) :
    runEdges ps s = .next { s with done := false, cnt := s.cnt - ps.length } := by
  induction ps generalizing s with
  | nil => exact absurd rfl hne
  | cons p ps ih =>
    have hp : p.rst = false := hps p (by simp)
    have hc : s.cnt ≠ 1 := by simp at hlen; omega
    rw [runEdges_cons_next (t := holdEdge s) (by rw [clockEdge_busy hp hi hb, busyEdge_more hc])]
    by_cases hnil : ps = []
    · subst hnil; rfl
    · rw [ih (s := holdEdge s) (by simpa using hi) (by simpa using hb)
        (by simp at hlen ⊢; omega) (fun q hq => hps q (by simp [hq])) hnil]
      simp [holdEdge, busyAfter, doneAfter, Nat.sub_sub, Nat.add_comm]

/-- A command in flight completes at the last of its edges (R27). -/
theorem runEdges_complete {ps : List InputPorts} {s : State} (hi : s.inited = true) (hb : s.busy = true)
    (hlen : ps.length = s.cnt) (hps : NoReset ps) (hne : ps ≠ []) :
    runEdges ps s = .next { s with busy := false, done := true, result := s.pend, pend := none, cnt := 0 } := by
  induction ps generalizing s with
  | nil => exact absurd rfl hne
  | cons p ps ih =>
    have hp : p.rst = false := hps p (by simp)
    by_cases hnil : ps = []
    · subst hnil
      have hc : s.cnt = 1 := by simpa using hlen.symm
      rw [runEdges_cons_next (t := completeEdge s) (by rw [clockEdge_busy hp hi hb, busyEdge_last hc])]
      rfl
    · have hpos : 0 < ps.length := List.length_pos_of_ne_nil hnil
      have hc : s.cnt ≠ 1 := by simp at hlen; omega
      rw [runEdges_cons_next (t := holdEdge s) (by rw [clockEdge_busy hp hi hb, busyEdge_more hc])]
      rw [ih (s := holdEdge s) (by simpa using hi) (by simpa using hb)
        (by simp at hlen ⊢; omega) (fun q hq => hps q (by simp [hq])) hnil]
      rfl

end Sys2Proof.Machine
end

