-- ==== Sys2Proof/Laws/HostSteps.lean ====
section
/-! SUPPORT. What the host steps of `30_encoding.md` R59 do at the ports, past the first reset edge and before it. -/

namespace Sys2Proof.Machine

variable {s : State}

theorem edgesUntilIdle_inited (h : s.inited = true) : edgesUntilIdle s = .ok (if s.busy then s.cnt else 0) := by
  simp [edgesUntilIdle, readBusy_inited h]

theorem edgesUntilDone_inited (h : s.inited = true) :
    edgesUntilDone s = .ok (if s.done then some 0 else if s.busy then some s.cnt else none) := by
  simp [edgesUntilDone, readBusy_inited h, readDone_inited h]

theorem issue_inited (i : Instr) (h : s.inited = true) :
    HostStep.events (.issue i) s
      = .ok (some (List.replicate (if s.busy then s.cnt else 0) (.edge quietPorts) ++ [.edge (present i)])) := by
  simp [HostStep.events, edgesUntilIdle_inited h, Except.map]

/-- `WAIT` is over in the cycle of the pulse, takes `cnt` edges with a command in flight, and else has no end (R59). -/
theorem wait_inited (h : s.inited = true) :
    HostStep.events .wait s
      = .ok (if s.done then some [] else if s.busy then some (List.replicate s.cnt (.edge quietPorts)) else none) := by
  simp only [HostStep.events, edgesUntilDone_inited h, Except.map]
  split <;> [rfl; split <;> rfl]

/-- Before the first reset edge `ISSUE` faults at its read of `busy` (R9, R106). -/
theorem issue_uninit (i : Instr) (h : s.inited = false) :
    HostStep.events (.issue i) s = .error (.unspecifiedRead .busy) := by
  simp [HostStep.events, edgesUntilIdle, readBusy_uninit h, Except.map]

/-- Before the first reset edge `WAIT` faults at its read of `done` (R9, R106). -/
theorem wait_uninit (h : s.inited = false) : HostStep.events .wait s = .error (.unspecifiedRead .done) := by
  simp [HostStep.events, edgesUntilDone, readDone_uninit h, Except.map]

end Sys2Proof.Machine
end

