-- ==== Sys2Proof/Laws/Inv.lean ====
section
/-! SUPPORT. Each update of the registers keeps the invariant of R33. -/

namespace Sys2Proof.Machine

/-- Every latency of the built block is at least 1, whatever it is (R27). -/
theorem config_latency_pos (op : OpCode) : 1 ≤ latencyOf Config.latencies op := by
  obtain rfl | rfl | rfl | rfl := opCode_cases op <;> exact Nat.le_add_left 1 _

/-- The invariant does not look at the events that wait. -/
theorem inv_withInputs {s : State} (h : Inv s) (evs : List HostEvent) : Inv { s with inputs := evs } :=
  ⟨h.latency, h.pendBusy, h.cntBusy, h.doneIdle, h.doneHas, h.busyHides, h.latched⟩

theorem inv_resetEdge {s : State} (h : Inv s) : Inv (resetEdge s) where
  latency := by simpa using h.latency
  pendBusy := by simp
  cntBusy := by simp
  doneIdle := by simp
  doneHas := by simp
  busyHides := by simp
  latched := by simp

theorem inv_acceptEdge {s : State} (h : Inv s) (op : OpCode) (opa : Word64) (opb : Word32) :
    Inv (acceptEdge op opa opb (opFunction s.rom op opa opb) s) where
  latency := by simpa using h.latency
  pendBusy := by simp
  cntBusy := by simpa using fun _ => h.latency op
  doneIdle := by simp
  doneHas := by simp
  busyHides := by simp
  latched := fun _ _ => ⟨op, opa, opb, by simp⟩

theorem inv_idleEdge {s : State} (h : Inv s) : Inv (idleEdge s) where
  latency := h.latency
  pendBusy := h.pendBusy
  cntBusy := h.cntBusy
  doneIdle := by simp
  doneHas := by simp
  busyHides := h.busyHides
  latched := h.latched

theorem inv_completeEdge {s : State} (h : Inv s) (hb : s.busy = true) : Inv (completeEdge s) where
  latency := h.latency
  pendBusy := by simp
  cntBusy := by simp
  doneIdle := by simp
  doneHas := fun hi _ => (h.pendBusy hi).1 hb
  busyHides := by simp
  latched := by simp

theorem inv_holdEdge {s : State} (h : Inv s) (hb : s.busy = true) (hc : s.cnt ≠ 1) : Inv (holdEdge s) where
  latency := h.latency
  pendBusy := h.pendBusy
  cntBusy := fun hi => by
    have := (h.cntBusy hi).1 hb
    simp only [holdEdge_busy, holdEdge_cnt, hb, true_iff]
    omega
  doneIdle := by simp
  doneHas := by simp
  busyHides := h.busyHides
  latched := fun hi _ => by
    obtain ⟨op, a, b, ho, ha, hbq, hp, hle⟩ := h.latched hi hb
    exact ⟨op, a, b, ho, ha, hbq, hp, le_trans (Nat.sub_le _ _) hle⟩

/-- Every rising edge keeps the invariant. -/
theorem inv_clockEdge {p : InputPorts} {s t : State} (h : Inv s) (hc : clockEdge p s = .next t) : Inv t := by
  obtain ⟨_, rfl⟩ | ⟨_, _, ⟨_, _, rfl⟩ | ⟨_, _, rfl⟩ | ⟨hb, _, rfl⟩ | ⟨hb, hne, rfl⟩⟩ := clockEdge_cases hc
  · exact inv_resetEdge h
  · exact inv_acceptEdge h _ _ _
  · exact inv_idleEdge h
  · exact inv_completeEdge h hb
  · exact inv_holdEdge h hb hne

end Sys2Proof.Machine
end

