-- ==== Sys2Proof/Laws/PerInstr.lean ====
section
/-! SUPPORT. Per command: the canonical word holds the three fields at their places (`30_encoding.md` R50). -/

namespace Sys2Proof.Laws.EncodingFields

/-- `cmd[97:96]`, `cmd[95:32]` and `cmd[31:0]` of the encoded command are its operation code and its two operands. -/
def Statement (i : Instr) : Prop :=
  (encode i).extractLsb' 96 2 = i.op ∧ (encode i).extractLsb' 32 64 = i.opa ∧ (encode i).extractLsb' 0 32 = i.opb

/-- The fields of a concatenation, for any three values. -/
theorem fields_of_append (op : OpCode) (a : Word64) (b : Word32) :
    ((op ++ a) ++ b).extractLsb' 96 2 = op ∧ ((op ++ a) ++ b).extractLsb' 32 64 = a
      ∧ ((op ++ a) ++ b).extractLsb' 0 32 = b := by
  refine ⟨?_, ?_, ?_⟩ <;> apply BitVec.eq_of_getLsbD_eq <;> intro k hk <;>
    simp only [BitVec.getLsbD_extractLsb', BitVec.getLsbD_append, hk, decide_true, Bool.true_and]
  · have h1 : ¬ 96 + k < 32 := by omega
    have h2 : ¬ 96 + k - 32 < 64 := by omega
    have h3 : 96 + k - 32 - 64 = k := by omega
    simp [h1, h2, h3]
  · have h1 : ¬ 32 + k < 32 := by omega
    have h2 : 32 + k - 32 = k := by omega
    simp [h1, h2, hk]
  · simp [hk]

theorem clz (opa : Word64) (opb : Word32) : Statement (.clz opa opb) := fields_of_append opClz opa opb

theorem mul (opa : Word64) (opb : Word32) : Statement (.mul opa opb) := fields_of_append opMul opa opb

theorem div (opa : Word64) (opb : Word32) : Statement (.div opa opb) := fields_of_append opDiv opa opb

theorem rsqrt (opa : Word64) (opb : Word32) : Statement (.rsqrt opa opb) := fields_of_append opRsqrt opa opb

end Sys2Proof.Laws.EncodingFields
end

