-- ==== Sys2Proof/Laws/Units.lean ====
section
/-! SUPPORT. The small lemmas of the result functions: their values as natural numbers. -/

namespace Sys2Proof.Machine

@[simp] theorem trunc32_toNat (v : Word64) : (trunc32 v).toNat = v.toNat % 2 ^ 32 := by
  simp [trunc32]

@[simp] theorem zext64_toNat {n : Nat} (h : n ≤ 64) (v : BitVec n) : (zext64 v).toNat = v.toNat := by
  simp only [zext64, BitVec.toNat_setWidth]
  exact Nat.mod_eq_of_lt (lt_of_lt_of_le v.isLt (Nat.pow_le_pow_right (by decide) h))

@[simp] theorem lowHalf_toNat (v : Word64) : (lowHalf v).toNat = v.toNat % 2 ^ 32 := by
  simp [lowHalf, BitVec.extractLsb'_toNat]

@[simp] theorem highHalf_toNat (v : Word64) : (highHalf v).toNat = v.toNat / 2 ^ 32 := by
  have := v.isLt
  simp only [highHalf, BitVec.extractLsb'_toNat, Nat.shiftRight_eq_div_pow]
  omega

theorem lowHalf_eq_ofNat (v : Word64) : lowHalf v = BitVec.ofNat 32 v.toNat := by
  apply BitVec.eq_of_toNat_eq; simp

/-- For a nonzero word, `31 - clz32` is the index of the most significant set bit, and `clz32` is at most 31. -/
theorem clz32_of_ne_zero {x : Word32} (h : x.toNat ≠ 0) : clz32 x = 31 - x.toNat.log2 ∧ x.toNat.log2 ≤ 31 := by
  have hlt : x.toNat.log2 < 32 := (Nat.log2_lt h).2 x.isLt
  simp only [clz32, bitLength, h, if_false]
  omega

theorem clz32_of_zero {x : Word32} (h : x.toNat = 0) : clz32 x = 32 := by simp [clz32, bitLength, h]

@[simp] theorem clzUnit_toNat (x : Word32) : (clzUnit x).toNat = clz32 x := by
  have : clz32 x ≤ 32 := Nat.sub_le _ _
  simp only [clzUnit, BitVec.toNat_ofNat]
  omega

/-- The product fits its 64 bits (R67). -/
theorem mul64_toNat (a b : Word32) : (mul64 a b).toNat = a.toNat * b.toNat := by
  have h : a.toNat * b.toNat < 2 ^ 32 * 2 ^ 32 := Nat.mul_lt_mul'' a.isLt b.isLt
  simp only [mul64, BitVec.toNat_ofNat]
  exact Nat.mod_eq_of_lt (by omega)

/-- The quotient fits its 64 bits (R71). -/
theorem div64_toNat {d : Word32} (n : Word64) (h : d ≠ 0) : (div64 n d).toNat = n.toNat / d.toNat := by
  simp only [div64, h, if_false, BitVec.toNat_ofNat]
  exact Nat.mod_eq_of_lt (lt_of_le_of_lt (Nat.div_le_self _ _) n.isLt)

/-- The exponent of a word of 2 or more, and the octave it stands for (R78). -/
theorem exponent_spec {x : Word32} (h : 2 ≤ x.toNat) :
    (exponent x).val = x.toNat.log2 ∧ 1 ≤ x.toNat.log2 ∧ 2 ^ x.toNat.log2 ≤ x.toNat
      ∧ x.toNat < 2 ^ (x.toNat.log2 + 1) := by
  have hne : x.toNat ≠ 0 := by omega
  obtain ⟨hc, hle⟩ := clz32_of_ne_zero hne
  refine ⟨by simp only [exponent, hc]; omega, (Nat.le_log2 hne).2 (by omega), Nat.log2_self_le hne, Nat.lt_log2_self⟩

/-- The stages of one Newton iteration as natural numbers, before any bound is known (R81). -/
theorem newton_toNat (x y : Word32) :
    (newton x y).y2.toNat = y.toNat * y.toNat % 2 ^ 32
    ∧ (newton x y).xy2.toNat = x.toNat * (newton x y).y2.toNat / 2 ^ 16 % 2 ^ 32
    ∧ (newton x y).s.toNat = (196608 + (2 ^ 32 - (newton x y).xy2.toNat)) % 2 ^ 32
    ∧ (newton x y).y.toNat = y.toNat * (newton x y).s.toNat / 2 ^ 17 % 2 ^ 32 := by
  refine ⟨?_, ?_, ?_, ?_⟩
  · simp [newton, mul64_toNat]
  · simp [newton, mul64_toNat, Nat.shiftRight_eq_div_pow]
  · simp only [newton, BitVec.toNat_sub]
    rw [Nat.add_comm]; rfl
  · simp [newton, mul64_toNat, Nat.shiftRight_eq_div_pow]

end Sys2Proof.Machine
end

