-- ==== Sys2Proof/Tests/Slice0.lean ====
section
/-! SUPPORT. Tests, whose expected values are those of `95_test_vectors.md` or worked out by hand from the rules, and for
every statement with hypotheses a witness that meets them. -/

namespace Sys2Proof.Tests

open Sys2Proof.Machine

/-! The states the tests use. The latencies are the illustrative ones of `95_test_vectors.md` section 6. -/

/-- Right after reset. -/
def idle : State := { State.afterReset with lat := { clz := 1, mul := 2, div := 3, rsqrt := 4 } }

/-- `RSQRT 12345` just accepted: four edges to go. -/
def inFlight : State := acceptEdge opRsqrt 12345 0 589 idle

/-- `CLZ 12345` just accepted: one edge to go. -/
def lastEdge : State := acceptEdge opClz 12345 0 18 idle

/-- In the cycle of the `done` pulse of `CLZ 12345`. -/
def published : State := completeEdge lastEdge

/-- Before the first reset. -/
def unborn : State := { idle with inited := false }

theorem idle_inv : Inv idle where
  latency := by decide
  pendBusy := by simp [idle, State.afterReset]
  cntBusy := by simp [idle, State.afterReset]
  doneIdle := by simp [idle, State.afterReset]
  doneHas := by simp [idle, State.afterReset]
  busyHides := by simp [idle, State.afterReset]
  latched := by simp [idle, State.afterReset]

theorem inFlight_inv : Inv inFlight := by
  have h : (589 : Word64) = opFunction idle.rom opRsqrt 12345 0 := by decide
  rw [inFlight, h]
  exact inv_acceptEdge idle_inv opRsqrt 12345 0

theorem lastEdge_inv : Inv lastEdge := by
  have h : (18 : Word64) = opFunction idle.rom opClz 12345 0 := by decide
  rw [lastEdge, h]
  exact inv_acceptEdge idle_inv opClz 12345 0

theorem published_inv : Inv published := inv_completeEdge lastEdge_inv rfl

/-- The next state's view of a step, for the tests: `busy`, `done`, `result` and `cnt`, as the timelines of
`95_test_vectors.md` list them. -/
def view (o : Outcome) : Option (Bool × Bool × Option Word64 × Nat) :=
  match o with
  | .next t => some (t.busy, t.done, t.result, t.cnt)
  | .fault _ => none
  | .refused _ => none

/-! Well-formedness (R52, R57, R58): each check refuses an ill-formed line -/

theorem test_line_well_formed : AsmLine.wellFormed { mnemonic := ['d', 'I', 'v'], operands := [2 ^ 64 - 1, 0] } = true := by
  decide

theorem test_unknown_mnemonic_refused : AsmLine.knownMnemonic { mnemonic := ['M', 'O', 'D'], operands := [1, 2] } = false := by
  decide

theorem test_missing_operand_refused : AsmLine.operandCountFits { mnemonic := ['M', 'U', 'L'], operands := [1] } = false := by
  decide

theorem test_extra_operand_refused : AsmLine.operandCountFits { mnemonic := ['C', 'L', 'Z'], operands := [1, 2] } = false := by
  decide

theorem test_literal_out_of_range_refused :
    AsmLine.literalsInRange { mnemonic := ['C', 'L', 'Z'], operands := [2 ^ 32] } = false := by
  decide

theorem test_every_command_well_formed : Instr.wellFormed (.clz 0xFFFFFFFF00000001 0xFFFFFFFF) = true := by decide

theorem test_ignored_bits_have_no_text : Instr.hasText (.clz 0xFFFFFFFF00000001 0) = false := by decide

/-! Decoding (R50, R51): words written out bit by bit, `op` then `opa` then `opb` -/

theorem test_decode_clz_bits :
    decodeTableWord 104 0b00_0000000000000000000000000000000000000000000000000011000000111001_00000000000000000000000000000000
      = some (.clz 12345 0) := by decide

theorem test_decode_mul_bits :
    decodeTableWord 104 0b01_0000000000000000000000000000000000000000000000000001100110011010_00000000000000000000000000001010
      = some (.mul 6554 10) := by decide

theorem test_decode_div_bits :
    decodeTableWord 104 0b10_0000000000000000000000000000000000000000000000010000000000000100_00000000000000000000000001100100
      = some (.div 65540 100) := by decide

theorem test_decode_rsqrt_bits :
    decodeTableWord 104 0b11_0000000000000000000000000000000011111111111111111111111111111111_00000000000000000000000000000000
      = some (.rsqrt 0xFFFFFFFF 0) := by decide

theorem test_decode_refuses_bit_98 : decodeNat (2 ^ 98) = .error .notACommandWord := by decide

/-! Units: the vectors of `95_test_vectors.md` sections 2 to 5 -/

/-- Each command word gives its result. -/
def vectorsHold (vs : List (Nat × Nat)) : Bool :=
  vs.all fun v =>
    match decodeNat v.1 with
    | .ok i => decide ((opFunction defaultTable i.op i.opa i.opb).toNat = v.2)
    | .error _ => false

theorem test_clz_vectors : vectorsHold [
    (0x0000000000000000000000000, 32), (0x0000000000000000100000000, 31), (0x0000000000000000200000000, 30),
    (0x0000000000000000300000000, 30), (0x0000000000000800000000000, 16), (0x0000000000000FFFF00000000, 16),
    (0x0000000000001000000000000, 15), (0x00000000000FF000000000000, 8), (0x0000000000000303900000000, 18),
    (0x0000000007FFFFFFF00000000, 1), (0x0000000008000000000000000, 0), (0x000000000FFFFFFFF00000000, 0),
    (0x0FFFFFFFF0000000000000000, 32), (0x0FFFFFFFF00000001FFFFFFFF, 31)] = true := by decide

theorem test_mul_vectors : vectorsHold [
    (0x1000000000000000000000000, 0), (0x10000000000000000FFFFFFFF, 0), (0x10000000000000001FFFFFFFF, 4294967295),
    (0x100000000FFFFFFFFFFFFFFFF, 18446744065119617025), (0x1000000008000000000000002, 4294967296),
    (0x100000000123456789ABCDEF0, 792891155752493184), (0x1000000009ABCDEF012345678, 792891155752493184),
    (0x1000000000000199A0000000A, 65540), (0x1000000000000000300000005, 15),
    (0x1000000000001000000010000, 4294967296), (0x1000000000000024D0000024D, 346921),
    (0x1000000000000303900054B29, 4282739745), (0x1FFFFFFFF0000000300000005, 15)] = true := by decide

theorem test_div_vectors : vectorsHold [
    (0x2000000000000006400000000, 0), (0x2FFFFFFFFFFFFFFFF00000000, 0), (0x2000000000000000000000000, 0),
    (0x2000000000000000000000005, 0), (0x2000000000000000500000007, 0), (0x2000000000000000700000007, 1),
    (0x2000000000000006400000003, 33), (0x2000000000001000400000064, 655),
    (0x2FFFFFFFFFFFFFFFF00000001, 18446744073709551615), (0x2FFFFFFFFFFFFFFFFFFFFFFFF, 4294967297),
    (0x2800000000000000000000002, 4611686018427387904), (0x2123456789ABCDEF000010000, 20015998343868),
    (0x200000000FF456C2100010000, 65349), (0x2FFFFFFFFFFFFFFFF00000002, 9223372036854775807),
    (0x20000000100000000FFFFFFFF, 1)] = true := by decide

theorem test_rsqrt_vectors : vectorsHold [
    (0x3000000000000000000000000, 4294967295), (0x3000000000000000100000000, 65536),
    (0x3000000000000000200000000, 46341), (0x3000000000000000300000000, 37836),
    (0x3000000000000000500000000, 29308), (0x3000000000000000700000000, 24770), (0x3000000000000006400000000, 6553),
    (0x3000000000000303900000000, 589), (0x3000000000000FFFF00000000, 255), (0x3000000000001000000000000, 256),
    (0x3000000000010000100000000, 64), (0x3000000002F68555600000000, 1), (0x3000000002F68555500000000, 2),
    (0x3000000007735940000000000, 1), (0x300000000FFFFFFFF00000000, 1), (0x3000000008000000000000000, 1),
    (0x3000000010000000000000000, 4294967295), (0x3FFFFFFFF0000000200000000, 46341)] = true := by decide

/-- The trace of 12345 in `95_test_vectors.md` section 5.2, every stage. -/
theorem test_rsqrt_trace_12345 : engineRun defaultTable 12345 =
    { exp := 13, y0 := 724,
      interp := some { yNext := 512, delta := 212, frac := 33224, drop := 107, y := 617 },
      newton1 := { y2 := 380689, xy2 := 71710, s := 124898, y := 587 },
      newton2 := { y2 := 344569, xy2 := 64906, s := 131702, y := 589 } } := by decide

/-- `P2` reads ROM entries 13 and 14 (`95_test_vectors.md` section 6). -/
theorem test_rsqrt_12345_reads_entries_13_and_14 :
    (engineUses defaultTable 12345).take 3 = [.clz 12345, .rom 13, .rom 14] := by decide

theorem test_clz_reference_window : clzRefWindow 0x00003039 = (18, 0xC0E40000) := by decide

theorem test_div_reference_100_by_3 : divRefLoop 100 3 64 = (33, 1) := by decide +kernel

/-! Steps: timelines of P1 and P5 (`95_test_vectors.md` section 6), one step each -/

theorem test_clz_accepted : view (step (idle.withFetchWord 104 0x0000000000000303900000000)) = some (true, false, none, 1) := by
  decide

theorem test_mul_accepted : view (step (idle.withFetchWord 104 0x1000000000000199A0000000A)) = some (true, false, none, 2) := by
  decide

theorem test_div_accepted : view (step (idle.withFetchWord 104 0x2000000000001000400000064)) = some (true, false, none, 3) := by
  decide

theorem test_rsqrt_accepted : view (step (idle.withFetchWord 104 0x3000000000000303900000000)) = some (true, false, none, 4) := by
  decide

theorem test_hold_drops_command : view (clockEdge (present (.clz 1 0)) inFlight) = some (true, false, none, 3) := by decide

theorem test_complete_publishes : view (clockEdge quietPorts lastEdge) = some (false, true, some 18, 0) := by decide

theorem test_idle_clears_done : view (clockEdge quietPorts published) = some (false, false, some 18, 0) := by decide

theorem test_reset_wins_over_completion : view (clockEdge { present (.clz 0 0) with rst := true } lastEdge)
    = some (false, false, none, 0) := by decide

theorem test_result_unreadable_in_flight : readResult inFlight = .error (.unspecifiedRead .result) := by decide

theorem test_result_readable_after_done : readResult published = .ok 18 := by decide

/-! The start of a run (R106, R107) -/

theorem test_run_starts_uninitialised : State.reset.inited = false ∧ Sys2Proof.core.reset = State.powerUp := ⟨rfl, rfl⟩

theorem test_run_must_begin_with_reset : view (step { State.reset with inputs := [.edge quietPorts] }) = none := by decide

theorem test_wait_before_reset_faults : HostStep.events .wait { unborn with done := true } = .error (.unspecifiedRead .done) := by
  decide

theorem test_wait_in_pulse_is_over : HostStep.events .wait published = .ok (some []) := by decide

/-! The ports as a host sees them (R39) -/

/-- A map as R39 recommends it: the low half at the lower addresses. -/
def littleEndianMap : HostMap :=
  { rst := 0, start := 1, op := 2, opa := #v[8, 9, 10, 11, 12, 13, 14, 15], opb := #v[16, 17, 18, 19], busy := 20, done := 21,
    result := #v[24, 25, 26, 27, 28, 29, 30, 31] }

theorem test_map_is_recommended : recommendedMap littleEndianMap = true := by decide

theorem test_map_with_halves_swapped_is_not :
    recommendedMap { littleEndianMap with result := #v[28, 29, 30, 31, 24, 25, 26, 27] } = false := by decide

theorem test_command_as_written_bytes : (inputCells littleEndianMap (present (.div 0x0807060504030201 0x0C0B0A09))).map Prod.snd
    = [0, 1, 2, 1, 2, 3, 4, 5, 6, 7, 8, 9, 10, 11, 12] := by decide

theorem test_result_seen_at_24 : outputCells littleEndianMap .result published
    = .ok [(24, 18), (25, 0), (26, 0), (27, 0), (28, 0), (29, 0), (30, 0), (31, 0)] := by decide

/-! The assembler (R57, R58) -/

theorem test_assemble_example : assemble "CLZ 1".toList = .ok (.clz 1 0) := by decide

theorem test_assemble_case_hex_comment : assemble " div 0xFFFF , 0 ; sentinel".toList = .ok (.div 0xFFFF 0) := by
  decide

theorem test_assemble_refuses_too_large : assemble "RSQRT 4294967296".toList = .error .literalOutOfRange := by decide

theorem test_assemble_refuses_missing : assemble "MUL 1".toList = .error .missingOperand := by decide

theorem test_assemble_refuses_extra : assemble "CLZ 1, 2".toList = .error .extraOperand := by decide

theorem test_assemble_refuses_mnemonic : assemble "MOD 7, 3".toList = .error .unknownMnemonic := by decide

theorem test_assemble_refuses_sign : assemble "CLZ -1".toList = .error .notALiteral := by decide

/-! Witnesses: for each statement of Certificates/Slice0/Obligations.lean with hypotheses, values that meet them, one for
each clause where clauses differ by range -/

theorem witness_DecodeOfEncodeIsIdentity : Instr.wellFormed (.rsqrt 0xFFFFFFFFFFFFFFFF 0xFFFFFFFF) = true := by decide

theorem witness_EncodeOfDecodeIsIdentity :
    decodeNat (2 ^ 98 - 1) = .ok (.rsqrt 0xFFFFFFFFFFFFFFFF 0xFFFFFFFF) ∧ 2 ^ 98 ≤ 2 ^ 98 := by decide

/-- One word for each value of `op`, the first and the last of its range. -/
theorem witness_EveryWordIsOneCommand :
    (∀ op : Fin 4, op.val * 2 ^ 96 < 2 ^ 98 ∧ (op.val + 1) * 2 ^ 96 - 1 < 2 ^ 98
      ∧ (op.val * 2 ^ 96) / 2 ^ 96 = op.val ∧ ((op.val + 1) * 2 ^ 96 - 1) / 2 ^ 96 = op.val)
    ∧ idle.inited = true := by decide

/-- A well-formed line at the edge of each range, and a line for each refusal. -/
theorem witness_AssemblerNeverTruncates :
    AsmLine.wellFormed { mnemonic := ['D', 'I', 'V'], operands := [2 ^ 64 - 1, 2 ^ 32 - 1] } = true
    ∧ AsmLine.wellFormed { mnemonic := ['c', 'l', 'z'], operands := [2 ^ 32 - 1] } = true
    ∧ AsmLine.knownMnemonic { mnemonic := [], operands := [] } = false
    ∧ (lookupMnemonic ['M', 'U', 'L'] = some .mul ∧ [1].length < (Mnemonic.operandBounds .mul).length
        ∧ (Mnemonic.operandBounds .mul).length < [1, 2, 3].length)
    ∧ (AsmLine.operandCountFits { mnemonic := ['M', 'U', 'L'], operands := [1, 2 ^ 32] } = true
        ∧ AsmLine.literalsInRange { mnemonic := ['M', 'U', 'L'], operands := [1, 2 ^ 32] } = false) := by decide

theorem witness_ResetAbandonsTheCommand :
    resetPorts.rst = true ∧ ∀ q ∈ [quietPorts, quietPorts], q.rst = false ∧ q.start = false := by decide

theorem witness_OneResetEdgeBoots : InputPorts.rst { present (.clz 1 0) with rst := true } = true := by decide

theorem witness_RunBeforeResetHasNoMeaning : unborn.inited = false ∧ quietPorts.rst = false ∧ (present (.clz 1 0)).rst = false := by
  decide

/-- A state within the invariant, and a step from it: an edge that completes a command. -/
theorem witness_EveryStepKeepsInvariant :
    Inv { lastEdge with inputs := [.edge quietPorts] } ∧ step { lastEdge with inputs := [.edge quietPorts] } = .next published :=
  ⟨inv_withInputs lastEdge_inv _, rfl⟩

theorem witness_RomAndLatenciesNeverChange : step { lastEdge with inputs := [.edge quietPorts] } = .next published := rfl

/-- A state for each clause: an edge past the first reset, no event at all, a read that faults, an edge that is refused. -/
theorem witness_OnlyUnspecifiedReadsFault :
    (idle.inited = true ∧ ∀ (o : OutputPort) (rest : List HostEvent),
        State.inputs { idle with inputs := [.edge quietPorts] } ≠ .read o :: rest)
    ∧ step { idle with inputs := [.read .result] } = .fault (.unspecifiedRead .result)
    ∧ step { unborn with inputs := [.read .done] } = .fault (.unspecifiedRead .done)
    ∧ step { unborn with inputs := [.edge quietPorts] } = .refused .beforeFirstReset :=
  ⟨⟨rfl, by simp⟩, rfl, rfl, rfl⟩

/-- Two uninitialised blocks that differ in every register, with an event coming. -/
theorem witness_UninitialisedRegistersDecideNothing :
    unborn.inited = false ∧ State.inited { inFlight with inited := false, done := true } = false
    ∧ inFlight.rom = unborn.rom ∧ inFlight.lat = unborn.lat
    ∧ State.inputs { unborn with inputs := [.edge resetPorts] } = State.inputs { inFlight with inputs := [.edge resetPorts] }
    ∧ State.inputs { unborn with inputs := [.edge resetPorts] } ≠ [] := ⟨rfl, rfl, rfl, rfl, rfl, by simp⟩

/-- A state and ports for each of the five cases, `cnt` at 1 and at 2 for the last two. -/
theorem witness_EdgeFollowsPriorityOrder :
    edgeCase resetPorts lastEdge = .reset ∧ edgeCase (present (.clz 1 0)) idle = .accept
    ∧ edgeCase quietPorts idle = .idle ∧ edgeCase (present (.clz 1 0)) lastEdge = .complete
    ∧ edgeCase (present (.clz 1 0)) { inFlight with cnt := 2 } = .hold
    ∧ idle.inited = true ∧ lastEdge.inited = true ∧ inFlight.inited = true := by decide

theorem witness_IdleEdgesKeepResult :
    published.inited = true ∧ published.busy = false ∧ [quietPorts] ≠ [] ∧ ∀ q ∈ [quietPorts], q.rst = false ∧ q.start = false := by
  decide

/-- A completion edge, and an edge from the cycle of a `done` pulse. -/
theorem witness_DoneMarksCompletionForOneCycle :
    lastEdge.inited = true ∧ step { lastEdge with inputs := [.edge quietPorts] } = .next published
    ∧ Inv published ∧ published.done = true
    ∧ step { published with inputs := [.edge quietPorts] } = .next (idleEdge published) :=
  ⟨rfl, rfl, published_inv, rfl, rfl⟩

theorem witness_BusySetByAcceptClearedByCompletion :
    idle.inited = true ∧ step { lastEdge with inputs := [.edge quietPorts] } = .next published
    ∧ step { idle with inputs := [.edge (present (.clz 12345 0))] } = .next lastEdge := ⟨rfl, rfl, rfl⟩

theorem witness_CommandWhileBusyIsDropped : inFlight.inited = true ∧ inFlight.busy = true := by decide

/-- All four edges of the command in flight, with different ports. -/
theorem witness_PortsFreeWhileBusy :
    inFlight.inited = true ∧ inFlight.busy = true
    ∧ (List.replicate 4 quietPorts).length = (List.replicate 4 (present (.clz 1 0))).length
    ∧ (List.replicate 4 quietPorts).length ≤ inFlight.cnt
    ∧ NoReset (List.replicate 4 quietPorts) ∧ NoReset (List.replicate 4 (present (.clz 1 0))) :=
  ⟨rfl, rfl, rfl, le_refl _, by simp [NoReset, quietPorts], by simp [NoReset, present]⟩

theorem witness_HeldStartIssuesAgain :
    idle.inited = true ∧ idle.busy = false ∧ ∀ op, 1 ≤ latencyOf idle.lat op := by decide

theorem witness_ResultChangesOnlyAsAWhole :
    step { lastEdge with inputs := [.edge quietPorts] } = .next published
    ∧ step { published with inputs := [.edge (present (.clz 12345 0))] } = .next lastEdge := ⟨rfl, rfl⟩

theorem witness_NoEdgeNoChange : idle.inputs = [] := rfl

theorem witness_StepRunsTheDecodedCommand :
    State.inputs { idle with inputs := [.edge (present (.mul 3 5))] } = [.edge (present (.mul 3 5))]
    ∧ (present (.mul 3 5)).rst = false ∧ (present (.mul 3 5)).start = true
    ∧ decodePorts (present (.mul 3 5)).op (present (.mul 3 5)).opa (present (.mul 3 5)).opb = .mul 3 5
    ∧ decodeTableWord 98 (2 ^ 98 - 1) = some (.rsqrt 0xFFFFFFFFFFFFFFFF 0xFFFFFFFF) := by decide

theorem witness_ReadingPortsChangesNothing : step { published with inputs := [.read .result] } = .next published := rfl

/-- A state for each clause: `result` defined, in the cycle of the pulse; `result` UNSPECIFIED, with a command in flight. -/
theorem witness_ResultReadableOnlyWhenDefined :
    published.inited = true ∧ published.result = some 18 ∧ Inv published ∧ published.done = true
    ∧ inFlight.inited = true ∧ inFlight.result = none ∧ Inv inFlight ∧ inFlight.busy = true :=
  ⟨rfl, rfl, published_inv, rfl, rfl, rfl, inFlight_inv, rfl⟩

/-- An idle block, and after it as many edges as `CLZ` takes; the operand both zero and not. -/
theorem witness_ClzCompletesWithTheCount :
    idle.inited = true ∧ idle.busy = false ∧ 1 ≤ idle.lat.clz
    ∧ (List.replicate 1 quietPorts).length = idle.lat.clz ∧ NoReset (List.replicate 1 quietPorts)
    ∧ (0xFFFFFFFF00000000 : Word64).toNat % 2 ^ 32 = 0 ∧ (1 : Word64).toNat % 2 ^ 32 ≠ 0 :=
  ⟨rfl, rfl, by decide, rfl, by simp [NoReset, quietPorts], by decide, by decide⟩

theorem witness_MulCompletesWithTheProduct :
    idle.inited = true ∧ idle.busy = false ∧ 1 ≤ idle.lat.mul
    ∧ (List.replicate 2 quietPorts).length = idle.lat.mul ∧ NoReset (List.replicate 2 quietPorts) :=
  ⟨rfl, rfl, by decide, rfl, by simp [NoReset, quietPorts]⟩

/-- The divisor both zero and not. -/
theorem witness_DivCompletesWithTheQuotient :
    idle.inited = true ∧ idle.busy = false ∧ 1 ≤ idle.lat.div
    ∧ (List.replicate 3 quietPorts).length = idle.lat.div ∧ NoReset (List.replicate 3 quietPorts)
    ∧ (0 : Word32).toNat = 0 ∧ (1 : Word32).toNat ≠ 0 :=
  ⟨rfl, rfl, by decide, rfl, by simp [NoReset, quietPorts], by decide, by decide⟩

theorem witness_RsqrtCompletesWithTheEstimate :
    idle.inited = true ∧ idle.busy = false ∧ 1 ≤ idle.lat.rsqrt
    ∧ (List.replicate 4 quietPorts).length = idle.lat.rsqrt ∧ NoReset (List.replicate 4 quietPorts) :=
  ⟨rfl, rfl, by decide, rfl, by simp [NoReset, quietPorts]⟩

/-- Fewer edges than the latency of `RSQRT`, and exactly as many. -/
theorem witness_EveryCommandTakesItsLatency :
    idle.inited = true ∧ idle.busy = false ∧ 1 ≤ latencyOf idle.lat (Instr.rsqrt 12345 0).op
    ∧ (List.replicate 3 quietPorts).length < latencyOf idle.lat (Instr.rsqrt 12345 0).op
    ∧ (List.replicate 4 quietPorts).length = latencyOf idle.lat (Instr.rsqrt 12345 0).op
    ∧ NoReset (List.replicate 3 quietPorts) ∧ NoReset (List.replicate 4 quietPorts) :=
  ⟨rfl, rfl, by decide, by decide, rfl, by simp [NoReset, quietPorts], by simp [NoReset, quietPorts]⟩

/-- Two blocks with different pasts: one right after reset, one that has just published a result. -/
theorem witness_ResultIndependentOfHistory :
    idle.inited = true ∧ published.inited = true ∧ idle.busy = false ∧ published.busy = false
    ∧ idle.rom = published.rom ∧ idle ≠ published ∧ 1 ≤ latencyOf idle.lat (Instr.mul 3 5).op
    ∧ (List.replicate 2 quietPorts).length = latencyOf idle.lat (Instr.mul 3 5).op
    ∧ (List.replicate 2 quietPorts).length = latencyOf published.lat (Instr.mul 3 5).op
    ∧ NoReset (List.replicate 2 quietPorts) :=
  ⟨rfl, rfl, rfl, rfl, rfl, by decide, by decide, rfl, rfl, by simp [NoReset, quietPorts]⟩

theorem witness_IgnoredOperandBitsDoNotMatter :
    (0xFFFFFFFF00000001 : Word64).toNat % 2 ^ 32 = (1 : Word64).toNat % 2 ^ 32 ∧ (0xFFFFFFFF00000001 : Word64) ≠ 1 := by
  decide

/-- From an idle block, and from one with a command in flight. -/
theorem witness_IssueIsAccepted : (Inv idle ∧ idle.inited = true) ∧ Inv inFlight ∧ inFlight.inited = true :=
  ⟨⟨idle_inv, rfl⟩, inFlight_inv, rfl⟩

theorem witness_IssueWaitReadGivesTheResult : (Inv idle ∧ idle.inited = true) ∧ Inv inFlight ∧ inFlight.inited = true :=
  ⟨⟨idle_inv, rfl⟩, inFlight_inv, rfl⟩

/-- A state for each clause: the ports defined, and `result` UNSPECIFIED. -/
theorem witness_HostMapLosesNoBit :
    (inputAddresses littleEndianMap).Nodup ∧ littleEndianMap.result.toList.Nodup
    ∧ readResult published = .ok 18 ∧ readBusy published = .ok false ∧ readDone published = .ok true
    ∧ readResult inFlight = .error (.unspecifiedRead .result) := by decide

theorem witness_ClzCountsZerosFromTheTop : 31 < clz32 0 ∧ clz32 1 < 32 := by decide

/-- Nonzero words at both ends, and the counts 0 and 31. -/
theorem witness_ClzBracketsItsOperand :
    (1 : Word32) ≠ 0 ∧ (0xFFFFFFFF : Word32) ≠ 0 ∧ clz32 0xFFFFFFFF = 0 ∧ clz32 1 = 31 := by decide

theorem witness_MulReferenceAgrees : 0 ≤ 32 ∧ 32 ≤ 32 := by decide

/-- A zero divisor, and a nonzero one whose quotient is the largest. -/
theorem witness_QuotientIsUnique :
    (0 : Word32) = 0 ∧ (1 : Word32) ≠ 0 ∧ (2 ^ 64 - 1) * (1 : Word32).toNat ≤ (0xFFFFFFFFFFFFFFFF : Word64).toNat
    ∧ (0xFFFFFFFFFFFFFFFF : Word64).toNat < (2 ^ 64 - 1 + 1) * (1 : Word32).toNat := by decide

theorem witness_DivReferenceAgrees : (1 : Word32) ≠ 0 ∧ 0 ≤ 64 ∧ 64 ≤ 64 := by decide

theorem witness_RomEntriesAreNearest : (0 : Fin 32).val % 2 = 0 ∧ (30 : Fin 32).val % 2 = 0 := by decide

theorem witness_ExponentIsTheTopBit :
    2 ≤ (2 : Word32).toNat ∧ 2 ≤ (0xFFFFFFFF : Word32).toNat ∧ (1 : Word32) ≠ 0 ∧ 31 - clz32 1 = 0 := by decide

/-- A power of two; an octave below 31; the octave 31; a fraction that is 0 without `x` being a power of two. -/
theorem witness_InterpolationStaysBetweenEntries :
    2 ≤ (2 : Word32).toNat ∧ (2 : Word32).toNat = 2 ^ (exponent 2).val
    ∧ (3 : Word32).toNat ≠ 2 ^ (exponent 3).val ∧ (exponent 3).val + 1 < 32
    ∧ (exponent 0xFFFFFFFF).val = 31
    ∧ 16 < (exponent 0x20001).val ∧ (0x20001 : Word32).toNat - 2 ^ (exponent 0x20001).val < 2 ^ ((exponent 0x20001).val - 16) := by
  decide

theorem witness_NewtonLosesNothing : 2 ≤ (2 : Word32).toNat ∧ 2 ≤ (0xFFFFFFFF : Word32).toNat := by decide

theorem witness_RsqrtIsTheExactFormula : 2 ≤ (2 : Word32).toNat ∧ 2 ≤ (0xFFFFFFFF : Word32).toNat := by decide

theorem witness_RsqrtRange : 2 ≤ (2 : Word32).toNat ∧ 2 ≤ (0xFFFFFFFF : Word32).toNat := by decide

/-- An even power, an odd one, the power 1, one of the five exceptions, and one that is none. -/
theorem witness_RsqrtAtPowersOfTwo :
    (30 : Fin 32).val % 2 = 0 ∧ ((31 : Fin 32).val % 2 = 1 ∧ (31 : Fin 32).val ≠ 1) ∧ (1 : Fin 32).val = 1
    ∧ (7 : Fin 32).val ∈ [7, 19, 23, 27, 29] ∧ (0 : Fin 32).val ∉ [7, 19, 23, 27, 29] := by decide

theorem witness_RsqrtIsNotMonotone : (65536, 255, 256) ∈ [(65536, 255, 256), (262144, 127, 128)] := by decide

theorem witness_EngineUsesAreBounded : 2 ≤ (2 : Word32).toNat ∧ 2 ≤ (0xFFFFFFFF : Word32).toNat := by decide

theorem witness_RsqrtWithinTolerance : 2 ≤ (2 : Word32).toNat ∧ 2 ≤ (0xFFFFFFFF : Word32).toNat := by decide

end Sys2Proof.Tests
end

section
/-! Before the first reset edge, nothing depends on what the registers hold (`00_scope.md` R9, `70_reset_and_hazards.md`
R106). -/

namespace Sys2Proof.Machine

/-- A reset edge keeps the ROM, the latencies and the waiting events, and forgets every register (R30). -/
theorem resetEdge_congr {s t : State} (hrom : t.rom = s.rom) (hlat : t.lat = s.lat) (hin : t.inputs = s.inputs) :
    resetEdge s = resetEdge t := by
  simp [resetEdge, busyAfter, hrom, hlat, hin]

/-- Before the first reset a rising edge resets or is refused, so no register decides its outcome (R106). -/
theorem clockEdge_uninit_congr (p : InputPorts) {s t : State} (hs : s.inited = false) (ht : t.inited = false)
    (hrom : t.rom = s.rom) (hlat : t.lat = s.lat) (hin : t.inputs = s.inputs) : clockEdge p s = clockEdge p t := by
  cases hr : p.rst with
  | true => rw [clockEdge_reset hr, clockEdge_reset hr, resetEdge_congr hrom hlat hin]
  | false => rw [clockEdge_uninit hr hs, clockEdge_uninit hr ht]

/-- Before the first reset no register decides the outcome of the host's next event. With no event left the state answers
itself, registers and all (R101), so there must be one. -/
theorem step_uninit_congr {s t : State} (hs : s.inited = false) (ht : t.inited = false) (hrom : t.rom = s.rom)
    (hlat : t.lat = s.lat) (hin : t.inputs = s.inputs) (hne : s.inputs ≠ []) : step s = step t := by
  cases hev : s.inputs with
  | nil => exact absurd hev hne
  | cons ev rest =>
    have hev' := hin.trans hev
    cases ev with
    | edge p =>
      rw [step_edge hev, step_edge hev']
      exact clockEdge_uninit_congr p hs ht hrom hlat rfl
    | read o =>
      rw [step_read hev, step_read hev', readPort_uninit (s := { s with inputs := rest }) hs,
        readPort_uninit (s := { t with inputs := rest }) ht]

/-- Before the first reset `ISSUE` and `WAIT` fault, and `READ` and `RESET` never look at the state (R59). -/
theorem events_uninit_congr (h : HostStep) {s t : State} (hs : s.inited = false) (ht : t.inited = false) :
    h.events s = h.events t := by
  cases h with
  | issue i => rw [issue_uninit i hs, issue_uninit i ht]
  | wait => rw [wait_uninit hs, wait_uninit ht]
  | read => rfl
  | reset => rfl

/-- Settles O56: each event and each host step has one outcome on all blocks that have not seen a reset edge. -/
theorem uninitialisedRegistersDecideNothing : Obligations.UninitialisedRegistersDecideNothing := by
  intro s t hs ht hrom hlat hin
  exact ⟨step_uninit_congr hs ht hrom hlat hin, fun h => events_uninit_congr h hs ht, fun i => issue_uninit i hs,
    wait_uninit hs⟩

end Sys2Proof.Machine
end

section
/-! The invariant of `10_state.md` R33 holds where a run starts and right after reset, and every step keeps it. -/

namespace Sys2Proof.Machine

/-- Settles O11: a step is no event, a rising edge or a read, and of these only an edge writes what the invariant is
about. -/
theorem everyStepKeepsInvariant : Obligations.EveryStepKeepsInvariant := by
  intro s t hinv hstep
  obtain ⟨_, rfl⟩ | ⟨p, rest, _, hedge⟩ | ⟨o, rest, _, rfl⟩ := step_cases hstep
  · exact hinv
  · exact inv_clockEdge (inv_withInputs hinv rest) hedge
  · exact inv_withInputs hinv rest

/-- Before the first reset edge the invariant asks only for the latencies (R27, R106). -/
theorem inv_of_uninit {s : State} (hlat : ∀ op, 1 ≤ latencyOf s.lat op) (hs : s.inited = false) : Inv s where
  latency := hlat
  pendBusy := by simp [hs]
  cntBusy := by simp [hs]
  doneIdle := by simp [hs]
  doneHas := by simp [hs]
  busyHides := by simp [hs]
  latched := by simp [hs]

/-- The reset edge that begins a run leads to the state right after reset (R30, R107). -/
theorem resetEdge_reset : resetEdge State.reset = State.afterReset := rfl

/-- Settles O10: the start of a run is before the first reset edge, and the state right after reset is a reset edge
later. -/
theorem resetStateMeetsInvariant : Obligations.ResetStateMeetsInvariant := by
  have hstart : Inv State.reset := inv_of_uninit config_latency_pos rfl
  exact ⟨hstart, resetEdge_reset ▸ inv_resetEdge hstart⟩

/-- Settles O8: the first event of the run is the reset edge, which does not look at the other ports. -/
theorem oneResetEdgeBoots : Obligations.OneResetEdgeBoots := by
  intro p rest hp
  refine ⟨rfl, rfl, ?_⟩
  rw [step_with_edge, clockEdge_reset hp]
  rfl

end Sys2Proof.Machine
end

section
/-! What one rising edge does to the registers (`10_state.md` R19, R20, R31), and the command it runs. -/

namespace Sys2Proof.Machine

/-- An edge of a block with one edge left completes the command, whatever `start` says (R27). -/
theorem clockEdge_complete {p : InputPorts} {s : State} (hr : p.rst = false) (hi : s.inited = true)
    (hb : s.busy = true) (hc : s.cnt = 1) : clockEdge p s = .next (completeEdge s) := by
  rw [clockEdge_busy hr hi hb, busyEdge_last hc]

/-- Any other edge of a busy block holds, whatever `start` says (R28). -/
theorem clockEdge_hold {p : InputPorts} {s : State} (hr : p.rst = false) (hi : s.inited = true)
    (hb : s.busy = true) (hc : s.cnt ≠ 1) : clockEdge p s = .next (holdEdge s) := by
  rw [clockEdge_busy hr hi hb, busyEdge_more hc]

/-- Settles O14: each arm of R31 is the law of its edge. -/
theorem edgeFollowsPriorityOrder : Obligations.EdgeFollowsPriorityOrder := by
  intro s p rest hi
  rw [step_with_edge]
  cases hr : p.rst with
  | true => simp [clockEdge_reset hr, resetEdge, busyAfter, doneAfter, hi]
  | false =>
    rw [if_neg Bool.false_ne_true]
    split_ifs with haccept hb hc
    · exact clockEdge_accept hr haccept.2 hi haccept.1
    · have hs : p.start = false := Bool.eq_false_of_not_eq_true fun hs => haccept ⟨hb, hs⟩
      exact clockEdge_idle hr hs hi hb
    · exact clockEdge_complete hr hi (Bool.eq_true_of_not_eq_false hb) hc
    · exact clockEdge_hold hr hi (Bool.eq_true_of_not_eq_false hb) hc

/-- `done` is 1 after an edge iff the edge was a completion edge (R20). -/
theorem clockEdge_done_iff {p : InputPorts} {s t : State} (h : clockEdge p s = .next t) :
    t.done = true ↔ p.rst = false ∧ s.inited = true ∧ s.busy = true ∧ s.cnt = 1 := by
  obtain ⟨hr, rfl⟩ | ⟨hr, hi, ⟨hb, _, rfl⟩ | ⟨hb, _, rfl⟩ | ⟨hb, hc, rfl⟩ | ⟨hb, hc, rfl⟩⟩ := clockEdge_cases h
  · simp [hr]
  · simp [hb]
  · simp [hb]
  · simp [hr, hi, hb, hc]
  · simp [hc]

/-- `busy` is 1 after an edge iff the edge accepted a command or held the one in flight (R19). -/
theorem clockEdge_busy_iff {p : InputPorts} {s t : State} (h : clockEdge p s = .next t) :
    t.busy = true ↔ p.rst = false ∧ ((s.busy = false ∧ p.start = true) ∨ (s.busy = true ∧ s.cnt ≠ 1)) := by
  obtain ⟨hr, rfl⟩ | ⟨hr, _, ⟨hb, hs, rfl⟩ | ⟨hb, hs, rfl⟩ | ⟨hb, hc, rfl⟩ | ⟨hb, hc, rfl⟩⟩ := clockEdge_cases h
  · simp [hr]
  · simp [hr, hb, hs]
  · simp [hb, hs]
  · simp [hb, hc]
  · simp [hr, hb, hc]

/-- Settles O16: a second `done` cycle would need a completion edge, and under the invariant the block is idle in the
first. -/
theorem doneMarksCompletionForOneCycle : Obligations.DoneMarksCompletionForOneCycle := by
  intro s t p rest hi hstep
  have hdone : t.done = true ↔ p.rst = false ∧ s.busy = true ∧ s.cnt = 1 := by
    rw [step_with_edge] at hstep
    simpa [hi] using clockEdge_done_iff hstep
  refine ⟨hdone, fun hinv hd => Bool.eq_false_of_not_eq_true fun ht => ?_⟩
  have hidle : s.busy = false := hinv.doneIdle hi hd
  obtain ⟨_, hbusy, _⟩ := hdone.1 ht
  simp [hidle] at hbusy

/-- Settles O17: the step is the rising edge, and the events that wait are no part of the condition. -/
theorem busySetByAcceptClearedByCompletion : Obligations.BusySetByAcceptClearedByCompletion := by
  intro s t p rest _ hstep
  rw [step_with_edge] at hstep
  exact clockEdge_busy_iff (s := { s with inputs := rest }) hstep

/-- An edge that presents a command to a block without reset runs it, whatever the block's state (R26). -/
theorem clockEdge_start {p : InputPorts} (s : State) (hr : p.rst = false) (hs : p.start = true) :
    clockEdge p s = exec (decodePorts p.op p.opa p.opb) s := by
  simp [clockEdge, hr, hs]

/-- The ports that present a command decode to it (R49, R56). -/
theorem decodePorts_present (i : Instr) : decodePorts (present i).op (present i).opa (present i).opb = i := by
  cases i <;> rfl

/-- The step of a block to which `i` is presented next runs `i` at the block made ready (log 8). -/
theorem step_presentNext (i : Instr) (s : State) : step (presentNext i s) = exec i (makeReady s) := by
  rw [step_edge (presentNext_inputs i s), clockEdge_start _ rfl rfl, decodePorts_present]
  rfl

/-- Settles O23: either way the next event is an edge that presents the command, and its ports decode to it. -/
theorem stepRunsTheDecodedCommand : Obligations.StepRunsTheDecodedCommand := by
  refine ⟨fun s p rest i hin hr hs hi => ?_, fun s nbits w i hw => ?_⟩
  · rw [step_edge hin, clockEdge_start _ hr hs, hi]
  · have hfetch : s.withFetchWord nbits w = presentNext i s := by simp [State.withFetchWord, hw]
    rw [hfetch, step_presentNext]
    rfl

end Sys2Proof.Machine
end

section
/-! Runs of an idle block at which no command is presented (`10_state.md` R29, R30, R103). -/

namespace Sys2Proof.Machine

/-- An idle edge has nothing to clear in a block without a `done` pulse (R29). -/
theorem idleEdge_of_done_false {s : State} (hd : s.done = false) : idleEdge s = s := by
  simp [idleEdge, busyAfter, doneAfter, ← hd]

/-- An idle block out of its `done` cycle stays as it is until a command is issued (R29). -/
theorem runEdges_idle {ports : List InputPorts} {s : State} (hi : s.inited = true) (hb : s.busy = false)
    (hd : s.done = false) (hports : ∀ q ∈ ports, q.rst = false ∧ q.start = false) : runEdges ports s = .next s := by
  induction ports with
  | nil => rfl
  | cons p ps ih =>
    obtain ⟨⟨hr, hs⟩, hps⟩ := List.forall_mem_cons.1 hports
    have hedge : clockEdge p s = .next s := by rw [clockEdge_idle hr hs hi hb, idleEdge_of_done_false hd]
    rw [runEdges_cons_next hedge, ih hps]

/-- Settles O15: the first edge clears `done`, and the others find nothing to do. -/
theorem idleEdgesKeepResult : Obligations.IdleEdgesKeepResult := by
  intro s ports hi hb hne hports
  cases ports with
  | nil => exact absurd rfl hne
  | cons p ps =>
    obtain ⟨⟨hr, hs⟩, hps⟩ := List.forall_mem_cons.1 hports
    rw [runEdges_cons_next (clockEdge_idle hr hs hi hb), runEdges_idle (s := idleEdge s) hi hb rfl hps]
    rfl

/-- Settles O7: the reset edge leaves an idle block out of a `done` cycle, which only a command can change. -/
theorem resetAbandonsTheCommand : Obligations.ResetAbandonsTheCommand := by
  intro s p hp
  exact ⟨resetEdge s, by rw [runEdges_cons_next (clockEdge_reset hp), runEdges_nil], rfl,
    fun ports hports => runEdges_idle rfl rfl rfl hports⟩

end Sys2Proof.Machine
end

section
/-! From the accept edge of a command to its completion (`10_state.md` R26 to R28, R32). -/

namespace Sys2Proof.Machine

/-- Fewer edges than a just accepted command has to go, none included, only count down (R28). -/
theorem runEdges_acceptEdge_hold {ps : List InputPorts} {s : State} (op : OpCode) (opa : Word64) (opb : Word32)
    (v : Word64) (hi : s.inited = true) (hlen : ps.length < latencyOf s.lat op) (hps : NoReset ps) :
    runEdges ps (acceptEdge op opa opb v s)
      = .next { acceptEdge op opa opb v s with cnt := latencyOf s.lat op - ps.length } := by
  cases ps with
  | nil => rfl
  | cons p ps => exact runEdges_hold (s := acceptEdge op opa opb v s) hi rfl hlen hps (List.cons_ne_nil p ps)

/-- A just accepted command completes at the `LAT(op)`-th edge (R27). -/
theorem runEdges_acceptEdge_complete {ps : List InputPorts} {s : State} (op : OpCode) (opa : Word64) (opb : Word32)
    (v : Word64) (hi : s.inited = true) (hpos : 1 ≤ latencyOf s.lat op) (hlen : ps.length = latencyOf s.lat op)
    (hps : NoReset ps) :
    runEdges ps (acceptEdge op opa opb v s) = .next (completeEdge (acceptEdge op opa opb v s)) :=
  runEdges_complete (s := acceptEdge op opa opb v s) hi rfl hlen hps
    (List.ne_nil_of_length_pos (hlen ▸ hpos))

/-- Settles O30: fewer edges than the accept edge left to go hold, and the last of them completes. -/
theorem everyCommandTakesItsLatency : Obligations.EveryCommandTakesItsLatency := by
  intro i s hi hb hpos
  refine ⟨_, exec_idle hi hb, fun ports hps => ⟨fun hlen => ?_, fun hlen => ?_⟩⟩
  · exact ⟨_, runEdges_acceptEdge_hold _ _ _ _ hi hlen hps, rfl, rfl, rfl, rfl, rfl⟩
  · exact ⟨_, runEdges_acceptEdge_complete _ _ _ _ hi hpos hlen hps, rfl, rfl, rfl, rfl⟩

/-- Settles O31: either block publishes the `F` that it latched at its accept edge, and `F` reads no register but the ROM. -/
theorem resultIndependentOfHistory : Obligations.ResultIndependentOfHistory := by
  intro i s1 s2 ps1 ps2 hi1 hi2 hb1 hb2 hrom hpos1 hpos2 hlen1 hlen2 hps1 hps2
  refine ⟨_, _, _, _, opFunction s1.rom i.op i.opa i.opb, exec_idle hi1 hb1, exec_idle hi2 hb2,
    runEdges_acceptEdge_complete _ _ _ _ hi1 hpos1 hlen1 hps1,
    runEdges_acceptEdge_complete _ _ _ _ hi2 hpos2 hlen2 hps2, ?_, ?_⟩
  · simp
  · simp [hrom]

end Sys2Proof.Machine
end

section
/-! What no step writes, and what a step may do to `result` (`20_memory.md` R35, R41, R42). -/

namespace Sys2Proof.Machine

/-- The fields no edge writes: the ROM (R35, R105) and the latencies (R27); and once a reset edge has occurred, it stays
so (R33). -/
theorem clockEdge_constants {p : InputPorts} {s t : State} (h : clockEdge p s = .next t) :
    t.rom = s.rom ∧ t.lat = s.lat ∧ (s.inited = true → t.inited = true) := by
  obtain ⟨_, rfl⟩ | ⟨_, _, ⟨_, _, rfl⟩ | ⟨_, _, rfl⟩ | ⟨_, _, rfl⟩ | ⟨_, _, rfl⟩⟩ := clockEdge_cases h
  · exact ⟨rfl, rfl, fun _ => rfl⟩
  all_goals exact ⟨rfl, rfl, id⟩

/-- Settles O12: only a rising edge writes anything but the waiting events. -/
theorem romAndLatenciesNeverChange : Obligations.RomAndLatenciesNeverChange := by
  intro s t hstep
  obtain ⟨_, rfl⟩ | ⟨p, rest, _, hedge⟩ | ⟨o, rest, _, rfl⟩ := step_cases hstep
  · exact ⟨rfl, rfl, id⟩
  · exact clockEdge_constants (s := { s with inputs := rest }) hedge
  · exact ⟨rfl, rfl, id⟩

/-- `result` after a rising edge: idle and hold edges keep it, reset and accept edges forget it, and a completion edge
publishes `pend` (R21, R26 to R30). -/
theorem clockEdge_result {p : InputPorts} {s t : State} (h : clockEdge p s = .next t) :
    t.result = s.result ∨ t.result = none
    ∨ (s.busy = true ∧ s.cnt = 1 ∧ t.done = true ∧ t.busy = false ∧ t.result = s.pend) := by
  obtain ⟨_, rfl⟩ | ⟨_, _, ⟨_, _, rfl⟩ | ⟨_, _, rfl⟩ | ⟨hb, hc, rfl⟩ | ⟨_, _, rfl⟩⟩ := clockEdge_cases h
  · exact .inr (.inl rfl)
  · exact .inr (.inl rfl)
  · exact .inl rfl
  · exact .inr (.inr ⟨hb, hc, rfl, rfl, rfl⟩)
  · exact .inl rfl

/-- Settles O21: a step that is no rising edge keeps `result`. -/
theorem resultChangesOnlyAsAWhole : Obligations.ResultChangesOnlyAsAWhole := by
  intro s t hstep
  obtain ⟨_, rfl⟩ | ⟨p, rest, _, hedge⟩ | ⟨o, rest, _, rfl⟩ := step_cases hstep
  · exact .inl rfl
  · exact clockEdge_result (s := { s with inputs := rest }) hedge
  · exact .inl rfl

/-- Settles O24: the step is the read, which consumes its own event and writes nothing. -/
theorem readingPortsChangesNothing : Obligations.ReadingPortsChangesNothing := by
  intro s t o rest hstep
  rw [step_with_read] at hstep
  exact readPort_next hstep

end Sys2Proof.Machine
end

section
/-! The default contents of the estimate ROM (`20_memory.md` R36, R38). -/

namespace Sys2Proof.Machine

/-- A number is nearest to `65536 / sqrt(n)`, without a tie, when the squares of its two half-way points, times `n`,
enclose `65536^2`. Both sides are doubled, so that the half-way points are integers. -/
theorem abs_sub_div_sqrt_lt_half {y n : ℤ} (hy : 0 ≤ y) (hn : 0 < n) (hlo : (2 * y - 1) ^ 2 * n < 131072 ^ 2)
    (hhi : 131072 ^ 2 < (2 * y + 1) ^ 2 * n) : |(y : ℝ) - 65536 / Real.sqrt n| < 1 / 2 := by
  have hn' : (0 : ℝ) < n := by exact_mod_cast hn
  have hy' : (0 : ℝ) ≤ y := by exact_mod_cast hy
  set q : ℝ := 65536 / Real.sqrt n with hq
  have hq0 : 0 ≤ q := by positivity
  have hsq : (2 * q) ^ 2 * n = 131072 ^ 2 := by
    rw [hq, mul_pow, div_pow, Real.sq_sqrt hn'.le]
    field_simp
    norm_num
  have hlo' : (2 * (y : ℝ) - 1) ^ 2 * n < (2 * q) ^ 2 * n := by rw [hsq]; exact_mod_cast hlo
  have hhi' : (2 * q) ^ 2 * n < (2 * (y : ℝ) + 1) ^ 2 * n := by rw [hsq]; exact_mod_cast hhi
  have hbelow : 2 * (y : ℝ) - 1 < 2 * q :=
    lt_of_pow_lt_pow_left₀ 2 (by positivity) (lt_of_mul_lt_mul_right hlo' hn'.le)
  have habove : 2 * q < 2 * (y : ℝ) + 1 :=
    lt_of_pow_lt_pow_left₀ 2 (by positivity) (lt_of_mul_lt_mul_right hhi' hn'.le)
  rw [abs_lt]
  constructor <;> linarith

/-- The half-way points of each entry enclose `65536 / sqrt(2^e)`, squared to stay within the integers (R36). -/
theorem defaultTable_halfway (e : Fin 32) :
    (2 * ((romRead defaultTable e).toNat : ℤ) - 1) ^ 2 * 2 ^ e.val < 131072 ^ 2
    ∧ 131072 ^ 2 < (2 * ((romRead defaultTable e).toNat : ℤ) + 1) ^ 2 * 2 ^ e.val := by
  revert e; decide

/-- Settles O44: over the reals the half-way points of the entry decide, and for even `e` the table is checked. -/
theorem romEntriesAreNearest : Obligations.RomEntriesAreNearest := by
  refine ⟨fun e => ?_, by decide⟩
  obtain ⟨hlo, hhi⟩ := defaultTable_halfway e
  have hnear := abs_sub_div_sqrt_lt_half (Int.natCast_nonneg _) (by positivity) hlo hhi
  exact_mod_cast hnear

/-- From each entry to the next the table drops by at least 1 and at most 19195 (R38). -/
theorem defaultTable_drop (e : Fin 31) :
    (romRead defaultTable e.succ).toNat + 1 ≤ (romRead defaultTable e.castSucc).toNat
    ∧ (romRead defaultTable e.castSucc).toNat ≤ (romRead defaultTable e.succ).toNat + 19195 := by
  revert e; decide

theorem defaultTable_pos (e : Fin 32) : 1 ≤ (romRead defaultTable e).toNat := by
  revert e; decide

/-- Settles O45: all but the four differences it names follow from the bounds on each drop. -/
theorem romIsNonIncreasing : Obligations.RomIsNonIncreasing := by
  refine ⟨fun e => ?_, defaultTable_pos, rfl, rfl, rfl, rfl⟩
  obtain ⟨hleast, hmost⟩ := defaultTable_drop e
  omega

end Sys2Proof.Machine
end

section
/-! What a host reads back through a `HOST_MAP` (`20_memory.md` R39, R43). -/

namespace Sys2Proof.Machine

/-- A port of at most one byte reads as what its cell holds. -/
theorem portValue_singleton {cells : List Host.Cell} (hn : (cells.map Prod.fst).Nodup) {a : Nat} {b : BitVec 8}
    (h : (a, b) ∈ cells) : portValue cells [a] = some b.toNat := by
  simp [portValue, lookup_of_mem hn h]

/-- A port whose bytes fill its width reads back whole. -/
theorem portValue_whole {w : Nat} (v : BitVec w) {cells : List Host.Cell} (hn : (cells.map Prod.fst).Nodup)
    {addrs : List Nat} (hw : w = 8 * addrs.length) (h : ∀ c ∈ portCells v 0 addrs, c ∈ cells) :
    portValue cells addrs = some v.toNat := by
  rw [portValue_of_portCells v hn 0 addrs h, ← hw]
  simp [Nat.mod_eq_of_lt v.isLt]

/-- The byte of a port of one bit reads as 0 or 1 (log 11). -/
@[simp] theorem toNat_bitByte (b : Bool) : (bitByte b).toNat = b.toNat := by cases b <;> rfl

/-- With distinct addresses, the cells a host writes give the input ports exactly the values meant. -/
theorem inputPorts_inputCells {m : HostMap} (hn : (inputAddresses m).Nodup) (p : InputPorts) :
    inputPorts m (inputCells m p) = some p := by
  have hcells : ((inputCells m p).map Prod.fst).Nodup := by rwa [map_fst_inputCells]
  have hrst : portValue (inputCells m p) [m.rst] = some (bitByte p.rst).toNat :=
    portValue_singleton hcells (by simp [inputCells])
  have hstart : portValue (inputCells m p) [m.start] = some (bitByte p.start).toNat :=
    portValue_singleton hcells (by simp [inputCells])
  have hop : portValue (inputCells m p) [m.op] = some (p.op.setWidth 8).toNat :=
    portValue_singleton hcells (by simp [inputCells])
  have hopa : portValue (inputCells m p) m.opa.toList = some p.opa.toNat :=
    portValue_whole p.opa hcells (by simp) fun c hc => by simp [inputCells, hc]
  have hopb : portValue (inputCells m p) m.opb.toList = some p.opb.toNat :=
    portValue_whole p.opb hcells (by simp) fun c hc => by simp [inputCells, hc]
  have hlow : BitVec.ofNat 2 (p.op.setWidth 8).toNat = p.op := by bv_omega
  simp only [inputPorts, hrst, hstart, hop, hopa, hopb, hlow, toNat_bitByte, Nat.testBit_bool_toNat, decide_true,
    Bool.true_and, BitVec.ofNat_toNat, BitVec.setWidth_eq]

/-- Settles O57: the cells written give the ports back, and those of an output port are its own bytes. -/
theorem hostMapLosesNoBit : Obligations.HostMapLosesNoBit := by
  intro m s hin hres
  refine ⟨inputPorts_inputCells hin, fun v hv => ?_, fun b hb => ?_, fun b hb => ?_, fun f hf => ?_⟩
  · have hcells : ((portCells v 0 m.result.toList).map Prod.fst).Nodup := by rwa [map_fst_portCells]
    exact ⟨portCells v 0 m.result.toList, by simp [outputCells, hv, Except.map], map_fst_portCells v 0 _,
      portValue_whole v hcells (by simp) fun c hc => hc⟩
  · exact ⟨[(m.busy, bitByte b)], by simp [outputCells, hb, Except.map], by simp [portValue]⟩
  · exact ⟨[(m.done, bitByte b)], by simp [outputCells, hb, Except.map], by simp [portValue]⟩
  · simp [outputCells, hf, Except.map]

end Sys2Proof.Machine
end

section
/-! The canonical command word and the command it stands for (`30_encoding.md` R49 to R52, R56). -/

namespace Sys2Proof.Machine

open Sys2Proof.Laws

/-- The canonical word of any command holds its three fields at their places (R50). -/
theorem encode_fields (i : Instr) : EncodingFields.Statement i := by
  cases i with
  | clz opa opb => exact EncodingFields.clz opa opb
  | mul opa opb => exact EncodingFields.mul opa opb
  | div opa opb => exact EncodingFields.div opa opb
  | rsqrt opa opb => exact EncodingFields.rsqrt opa opb

theorem decodeWord_encode (i : Instr) : decodeWord (encode i) = i := by
  obtain ⟨hop, hopa, hopb⟩ := encode_fields i
  rw [decodeWord, hop, hopa, hopb]
  exact decodePorts_present i

/-- The three fields fill the word: put side by side again, they give it back (R50). -/
theorem append_fields (w : CmdWord) : (w.extractLsb' 96 2 ++ w.extractLsb' 32 64) ++ w.extractLsb' 0 32 = w := by
  rw [BitVec.extractLsb'_append_extractLsb'_eq_extractLsb' (by decide),
    BitVec.extractLsb'_append_extractLsb'_eq_extractLsb' (by decide), BitVec.extractLsb'_eq_self]

theorem encode_decodeWord (w : CmdWord) : encode (decodeWord w) = w := by
  simp only [encode, decodeWord, op_decodePorts, opa_decodePorts, opb_decodePorts]
  exact append_fields w

theorem decodeNat_of_lt {n : Nat} (h : n < 2 ^ 98) : decodeNat n = .ok (decodeWord (BitVec.ofNat 98 n)) := if_pos h

theorem decodeNat_of_le {n : Nat} (h : 2 ^ 98 ≤ n) : decodeNat n = .error .notACommandWord := if_neg h.not_gt

/-- The decoder answers a command for its canonical word and for no other number (R50). -/
theorem decodeNat_eq_ok_iff {n : Nat} {i : Instr} : decodeNat n = .ok i ↔ (encode i).toNat = n := by
  constructor
  · intro h
    obtain hn | hn := lt_or_ge n (2 ^ 98)
    · rw [decodeNat_of_lt hn] at h
      cases h
      rw [encode_decodeWord, BitVec.toNat_ofNat, Nat.mod_eq_of_lt hn]
    · rw [decodeNat_of_le hn] at h
      cases h
  · rintro rfl
    rw [decodeNat_of_lt (encode i).isLt, BitVec.ofNat_toNat, BitVec.setWidth_eq, decodeWord_encode]

/-- Settles O2: the fields of the canonical word are the ports, and the ports decode to the command they present. -/
theorem decodeOfEncodeIsIdentity : Obligations.DecodeOfEncodeIsIdentity :=
  fun i _ => ⟨decodeNat_eq_ok_iff.2 rfl, decodePorts_present i⟩

/-- Settles O3: a number below 2^98 decodes and one from there up does not. -/
theorem encodeOfDecodeIsIdentity : Obligations.EncodeOfDecodeIsIdentity := by
  refine ⟨fun n i => decodeNat_eq_ok_iff.1, fun n => ⟨fun herr => ?_, decodeNat_of_le⟩⟩
  by_contra hn
  rw [decodeNat_of_lt (not_le.1 hn)] at herr
  cases herr

/-- The operation code of a command word is its top two bits (R50). -/
theorem op_decodeWord_ofNat {n : Nat} (h : n < 2 ^ 98) :
    (decodeWord (BitVec.ofNat 98 n)).op.toNat = n / 2 ^ 96 := by
  rw [decodeWord, op_decodePorts, BitVec.extractLsb'_toNat, BitVec.toNat_ofNat, Nat.shiftRight_eq_div_pow]
  omega

/-- Past the first reset no command traps, whether the block is busy or idle (R52, R92). -/
theorem exec_next (i : Instr) {s : State} (hi : s.inited = true) : ∃ t, exec i s = .next t := by
  obtain hb | hb := Bool.eq_false_or_eq_true s.busy
  · exact ⟨_, exec_busy hi hb⟩
  · exact ⟨_, exec_idle hi hb⟩

/-- Settles O4: the top two bits are the operation code of the decoded command, and each operation has its own. -/
theorem everyWordIsOneCommand : Obligations.EveryWordIsOneCommand := by
  intro n hn
  refine ⟨_, decodeNat_of_lt hn, ?_, fun s => exec_next _⟩
  rw [← op_decodeWord_ofNat hn]
  cases decodeWord (BitVec.ofNat 98 n) with
  | clz opa opb => exact .inl ⟨rfl, opa, opb, rfl⟩
  | mul opa opb => exact .inr (.inl ⟨rfl, opa, opb, rfl⟩)
  | div opa opb => exact .inr (.inr (.inl ⟨rfl, opa, opb, rfl⟩))
  | rsqrt opa opb => exact .inr (.inr (.inr ⟨rfl, opa, opb, rfl⟩))

/-- Settles O1: each word is the encoding of the command it stands for, digit by digit. -/
theorem specWordsDecode : Obligations.SpecWordsDecode := by
  refine ⟨?_, ?_, ?_, ?_, ?_⟩ <;> exact decodeNat_eq_ok_iff.2 (by decide)

end Sys2Proof.Machine
end

section
/-! The assembler keeps every literal whole or refuses the line by name (`30_encoding.md` R53, R57, R58). -/

namespace Sys2Proof.Machine

theorem assembleLine_unknown {l : AsmLine} (h : l.knownMnemonic = false) :
    assembleLine l = .error .unknownMnemonic := by
  have hm : lookupMnemonic l.mnemonic = none := by simpa [AsmLine.knownMnemonic] using h
  simp [assembleLine, hm]

theorem assembleLine_missing {l : AsmLine} {m : Mnemonic} (hm : lookupMnemonic l.mnemonic = some m)
    (h : l.operands.length < m.operandBounds.length) : assembleLine l = .error .missingOperand := by
  simp [assembleLine, hm, h]

theorem assembleLine_extra {l : AsmLine} {m : Mnemonic} (hm : lookupMnemonic l.mnemonic = some m)
    (h : m.operandBounds.length < l.operands.length) : assembleLine l = .error .extraOperand := by
  simp [assembleLine, hm, h, h.not_gt]

/-- A line with a known mnemonic and the right number of operands is assembled or refused by their ranges alone. -/
theorem assembleLine_of_count {l : AsmLine} {m : Mnemonic} (hm : lookupMnemonic l.mnemonic = some m)
    (h : l.operands.length = m.operandBounds.length) :
    assembleLine l = if l.literalsInRange then .ok (fieldsOf m l.operands) else .error .literalOutOfRange := by
  simp [assembleLine, hm, h]

/-- What the first two checks of R58 say of a line that passes them. -/
theorem exists_mnemonic_of_count {l : AsmLine} (h : l.operandCountFits = true) :
    ∃ m, lookupMnemonic l.mnemonic = some m ∧ l.operands.length = m.operandBounds.length := by
  cases hm : lookupMnemonic l.mnemonic with
  | none => simp [AsmLine.operandCountFits, hm] at h
  | some m => exact ⟨m, rfl, by simpa [AsmLine.operandCountFits, hm] using h⟩

/-- On a line with the right number of operands, the range check of R58 compares each operand with its own bound. -/
theorem literalsInRange_iff {l : AsmLine} {m : Mnemonic} (hm : lookupMnemonic l.mnemonic = some m)
    (h : l.operands.length = m.operandBounds.length) :
    l.literalsInRange = true ↔ List.Forall₂ (· < ·) l.operands m.operandBounds := by
  simp [AsmLine.literalsInRange, hm, List.forall₂_iff_zip, h]

/-- Operands within the bounds of R57 go to their fields whole, and every field the text does not name is zero. -/
theorem fieldsOf_exact {m : Mnemonic} {ops : List Nat} (h : List.Forall₂ (· < ·) ops m.operandBounds) :
    (fieldsOf m ops).hasText = true ∧ (fieldsOf m ops).opa.toNat = ops.getD 0 0
      ∧ (fieldsOf m ops).opb.toNat = ops.getD 1 0 := by
  cases m with
  | clz | rsqrt =>
    obtain _ | ⟨ha, _ | _⟩ := h
    simp only [fieldsOf, Instr.hasText, Instr.opa, Instr.opb, List.getD_cons_zero, List.getD_cons_succ, List.getD_nil,
      BitVec.ofNat_eq_ofNat, BitVec.toNat_ofNat, decide_eq_true_eq, and_true]
    omega
  | mul | div =>
    obtain _ | ⟨ha, _ | ⟨hb, _ | _⟩⟩ := h
    simp only [fieldsOf, Instr.hasText, Instr.opa, Instr.opb, List.getD_cons_zero, List.getD_cons_succ,
      BitVec.toNat_ofNat, decide_eq_true_eq, true_and]
    omega

/-- Settles O5: a well-formed line passes the three checks, and a line that fails one is refused by its name. -/
theorem assemblerNeverTruncates : Obligations.AssemblerNeverTruncates := by
  intro l
  refine ⟨fun hwf => ?_, assembleLine_unknown, fun m hm => ⟨assembleLine_missing hm, assembleLine_extra hm⟩,
    fun _ hcount hrange => ?_⟩
  · obtain ⟨⟨_, hcount⟩, hrange⟩ : (_ ∧ l.operandCountFits = true) ∧ l.literalsInRange = true := by
      simpa [AsmLine.wellFormed] using hwf
    obtain ⟨m, hm, hlen⟩ := exists_mnemonic_of_count hcount
    obtain ⟨htext, hopa, hopb⟩ := fieldsOf_exact ((literalsInRange_iff hm hlen).1 hrange)
    refine ⟨fieldsOf m l.operands, by rw [assembleLine_of_count hm hlen, if_pos hrange], htext, hopa, hopb, ?_⟩
    cases m <;> exact hm
  · obtain ⟨m, hm, hlen⟩ := exists_mnemonic_of_count hcount
    rw [assembleLine_of_count hm hlen, if_neg (by simp [hrange])]

/-- Settles O6: the two texts are read character by character, and the two words written digit by digit. -/
theorem exampleTextAssembles : Obligations.ExampleTextAssembles := by
  refine ⟨?_, ?_, ?_, ?_⟩ <;> decide

end Sys2Proof.Machine
end

section
/-! The value of `F`: which operand bits it reads, and how narrow results are extended (`30_encoding.md` R53 to R55). -/

namespace Sys2Proof.Machine

theorem opFunction_clz (rom : Rom) (opa : Word64) (opb : Word32) :
    opFunction rom 0b00#2 opa opb = zext64 (clzUnit (lowHalf opa)) := rfl

theorem opFunction_mul (rom : Rom) (opa : Word64) (opb : Word32) :
    opFunction rom 0b01#2 opa opb = mul64 (lowHalf opa) opb := rfl

theorem opFunction_rsqrt (rom : Rom) (opa : Word64) (opb : Word32) :
    opFunction rom 0b11#2 opa opb = zext64 (rsqrt rom (lowHalf opa)) := rfl

/-- The bits above a zero-extended field are 0 (R7, R54). -/
theorem getLsbD_zext64_of_le {n k : Nat} (v : BitVec n) (h : n ≤ k) : (zext64 v).getLsbD k = false := by
  rw [zext64, BitVec.getLsbD_setWidth, BitVec.getLsbD_of_ge v k h, Bool.and_false]

/-- Settles O33: both results are zero-extended fields of their unit's output width, 6 and 32. -/
theorem resultsAreZeroExtended : Obligations.ResultsAreZeroExtended := by
  intro rom opa opb
  rw [← lowHalf_eq_ofNat, opFunction_clz, opFunction_rsqrt]
  refine ⟨?_, fun _ => getLsbD_zext64_of_le _, ?_, fun _ => getLsbD_zext64_of_le _⟩
  · rw [zext64_toNat (by decide), clzUnit_toNat]
  · rw [zext64_toNat (by decide)]

/-- Settles O32: the three operations read `opa` through its low half, and two of them do not read `opb`. -/
theorem ignoredOperandBitsDoNotMatter : Obligations.IgnoredOperandBitsDoNotMatter := by
  intro rom opa opa' opb opb' h
  have hlow : lowHalf opa = lowHalf opa' := BitVec.eq_of_toNat_eq (by simpa using h)
  simp only [opFunction_clz, opFunction_mul, opFunction_rsqrt, hlow, and_self]

end Sys2Proof.Machine
end

section
/-! The host steps past the first reset edge (`30_encoding.md` R59). -/

namespace Sys2Proof.Machine

theorem noReset_quiet (k : Nat) : NoReset (List.replicate k quietPorts) := by
  intro p hp
  rw [List.eq_of_mem_replicate hp]
  rfl

/-- An idle block accepts the command that one edge presents, with its `F` to be published (R26, R59). -/
theorem runEdges_present (i : Instr) {s : State} (hi : s.inited = true) (hb : s.busy = false) :
    runEdges [present i] s = .next (acceptEdge i.op i.opa i.opb (opFunction s.rom i.op i.opa i.opb) s) := by
  rw [runEdges_cons_next (clockEdge_accept rfl rfl hi hb), runEdges_nil]
  rfl

/-- The quiet edges that `ISSUE` lets pass leave the block idle, with no event consumed (R27, R59). -/
theorem runEdges_until_idle {s : State} (hinv : Inv s) (hi : s.inited = true) :
    ∃ t, runEdges (List.replicate (if s.busy then s.cnt else 0) quietPorts) s = .next t
      ∧ t.inited = true ∧ t.busy = false ∧ t.rom = s.rom ∧ t.lat = s.lat ∧ t.inputs = s.inputs := by
  cases hb : s.busy with
  | false => exact ⟨s, runEdges_nil s, hi, hb, rfl, rfl, rfl⟩
  | true =>
    have hpos : s.cnt ≠ 0 := Nat.one_le_iff_ne_zero.1 ((hinv.cntBusy hi).1 hb)
    exact ⟨_, runEdges_complete hi hb (List.length_replicate ..) (noReset_quiet _) (by simpa using hpos),
      hi, rfl, rfl, rfl, rfl⟩

/-- `ISSUE` ends with the accept edge of its command, on the block that the command in flight has left (R26, R59). -/
theorem issue_accepts (i : Instr) {s : State} (hinv : Inv s) (hi : s.inited = true) :
    ∃ evs t, HostStep.events (.issue i) s = .ok (some evs)
      ∧ runEvents evs s = .next (acceptEdge i.op i.opa i.opb (opFunction s.rom i.op i.opa i.opb) t)
      ∧ t.inited = true ∧ t.rom = s.rom ∧ t.lat = s.lat ∧ t.inputs = s.inputs := by
  obtain ⟨t, hrun, hti, htb, hrom, hlat, hin⟩ := runEdges_until_idle hinv hi
  have hissue := (runEdges_append (qs := [present i]) hi hrun).trans (runEdges_present i hti htb)
  rw [runEdges, List.map_append, List.map_replicate, hrom] at hissue
  exact ⟨_, t, issue_inited i hi, hissue, hti, hrom, hlat, hin⟩

/-- Settles O34: `ISSUE` ends with the accept edge, which latches the command and its `F`. -/
theorem issueIsAccepted : Obligations.IssueIsAccepted := by
  intro i s hinv hi
  obtain ⟨evs, t, hevs, hrun, _, hrom, hlat, hin⟩ := issue_accepts i hinv hi
  exact ⟨evs, _, hevs, hrun, rfl, rfl, rfl, rfl, rfl, rfl, rfl, by simp [hlat], hrom, hlat, hin⟩

/-- `WAIT` right after an accept edge lets the whole latency of the command pass, up to its `done` pulse (R27, R59). -/
theorem wait_completes (op : OpCode) (opa : Word64) (opb : Word32) (v : Word64) {s : State} (hi : s.inited = true)
    (hpos : 1 ≤ latencyOf s.lat op) :
    ∃ evs, HostStep.events .wait (acceptEdge op opa opb v s) = .ok (some evs)
      ∧ runEvents evs (acceptEdge op opa opb v s) = .next (completeEdge (acceptEdge op opa opb v s)) := by
  have hrun := runEdges_acceptEdge_complete op opa opb v hi hpos (List.length_replicate ..) (noReset_quiet _)
  rw [runEdges, List.map_replicate] at hrun
  exact ⟨_, wait_inited (s := acceptEdge op opa opb v s) hi, hrun⟩

theorem readResult_some {s : State} {v : Word64} (hi : s.inited = true) (hv : s.result = some v) :
    readResult s = .ok v := by
  simp [readResult, hi, hv]

/-- `READ` is legal where `result` has a value, and changes nothing (R42, R109). -/
theorem runEvents_read_result {s : State} {v : Word64} (hi : s.inited = true) (hv : s.result = some v) :
    runEvents [.read .result] s = .next s := by
  refine runEvents_read ?_
  rw [readPort, readResult_some hi hv, afterRead]

/-- Settles O35: `ISSUE` ends with the accept edge of the command, `WAIT` with its completion edge, and the `READ` finds
what that edge published. -/
theorem issueWaitReadGivesTheResult : Obligations.IssueWaitReadGivesTheResult := by
  intro i s hinv hi
  obtain ⟨e1, t, hissue, haccept, hti, _, hlat, _⟩ := issue_accepts i hinv hi
  obtain ⟨e2, hwait, hcomplete⟩ := wait_completes i.op i.opa i.opb (opFunction s.rom i.op i.opa i.opb) hti
    (hlat ▸ hinv.latency i.op)
  exact ⟨e1, _, e2, _, _, hissue, haccept, hwait, hcomplete, rfl, rfl, readResult_some hti rfl, rfl,
    runEvents_read_result hti rfl⟩

end Sys2Proof.Machine
end

section
/-! `clz_unit` (`40_clz.md` R60 to R64): the count as bounds of its operand, as zero bits from the top, and as the outcome
of the reference search. -/

namespace Sys2Proof.Machine

theorem word_toNat_eq_zero_iff {x : Word32} : x.toNat = 0 ↔ x = 0 := BitVec.toNat_inj (y := 0)

/-- The top `k` bits of a word are zero iff the count reaches `k` (R62). -/
theorem le_clz32_iff {x : Word32} {k : Nat} (hk : k ≤ 32) : k ≤ clz32 x ↔ x.toNat < 2 ^ (32 - k) := by
  by_cases h : x.toNat = 0
  · simp [clz32_of_zero h, h, hk]
  · obtain ⟨hc, hle⟩ := clz32_of_ne_zero h
    rw [← Nat.log2_lt h, hc]
    omega

theorem clz32_le (x : Word32) : clz32 x ≤ 32 := Nat.sub_le _ _

theorem clz32_lt_iff {x : Word32} : clz32 x < 32 ↔ x ≠ 0 := by
  rw [← not_le, le_clz32_iff le_rfl, Nat.sub_self, pow_zero, Nat.lt_one_iff, word_toNat_eq_zero_iff, ne_eq]

/-- The bracket of R64: the words with the count `c` are an interval. -/
theorem clz32_eq_iff {x : Word32} {c : Nat} (hc : c ≤ 31) :
    clz32 x = c ↔ 2 ^ (31 - c) ≤ x.toNat ∧ x.toNat < 2 ^ (32 - c) := by
  have hnext : c + 1 ≤ clz32 x ↔ x.toNat < 2 ^ (31 - c) := by
    rw [le_clz32_iff (by omega), Nat.succ_sub_succ]
  rw [← le_clz32_iff (by omega), ← not_lt, ← hnext]
  omega

/-- The bits above the bracket are 0. -/
theorem getLsbD_eq_false_of_clz32 {x : Word32} {j : Nat} (hj : 32 - clz32 x ≤ j) : x.getLsbD j = false :=
  Nat.testBit_lt_two_pow <| lt_of_lt_of_le ((le_clz32_iff (clz32_le x)).1 le_rfl)
    (Nat.pow_le_pow_right (by decide) hj)

/-- The count stops at a 1 bit (R62). -/
theorem getLsbD_clz32 {x : Word32} (h : clz32 x < 32) : x.getLsbD (31 - clz32 x) = true := by
  obtain ⟨hlo, hhi⟩ := (clz32_eq_iff (x := x) (Nat.le_of_lt_succ h)).1 rfl
  refine Nat.testBit_of_two_pow_le_and_two_pow_add_one_gt hlo ?_
  rwa [← Nat.sub_add_comm (by omega)]

/-- Settles O36: the count is at most 32, and below 32 iff the word is not 0. -/
theorem clzCountRange : Obligations.ClzCountRange :=
  fun x => ⟨clz32_le x, not_iff_not.1 ((clz32_le x).lt_iff_ne.symm.trans clz32_lt_iff)⟩

/-- Settles O37: the bits above the bracket are the zeros, and the bit the count stops at is the 1. -/
theorem clzCountsZerosFromTheTop : Obligations.ClzCountsZerosFromTheTop := by
  intro x
  refine ⟨?_, fun k hk => getLsbD_eq_false_of_clz32 (by omega), getLsbD_clz32⟩
  simp only [clz32, bitLength, Nat.log2_eq_log_two, word_toNat_eq_zero_iff]

/-- As many words lie in an interval as there are numbers in it. -/
theorem card_toNat_mem_Ico {a b : Nat} (hb : b ≤ 2 ^ 32) :
    (Finset.univ.filter fun x : Word32 => a ≤ x.toNat ∧ x.toNat < b).card = b - a := by
  rw [← Nat.card_Ico]
  refine Finset.card_bij (fun x _ => x.toNat) (by simp) (fun x _ y _ => BitVec.eq_of_toNat_eq) fun n hn => ?_
  have hn' : n < 2 ^ 32 := lt_of_lt_of_le (Finset.mem_Ico.1 hn).2 hb
  have hword : (BitVec.ofNat 32 n).toNat = n := by rw [BitVec.toNat_ofNat, Nat.mod_eq_of_lt hn']
  exact ⟨BitVec.ofNat 32 n, by simpa [hword] using hn, hword⟩

/-- Each count up to 31 halves the number of words (R64). -/
theorem card_clz32_eq {c : Nat} (hc : c ≤ 31) :
    (Finset.univ.filter fun x : Word32 => clz32 x = c).card = 2 ^ (31 - c) := by
  have hdouble : 2 ^ (32 - c) = 2 ^ (31 - c) * 2 := by rw [← pow_succ]; congr 1; omega
  have htop : 2 ^ (32 - c) ≤ 2 ^ 32 := Nat.pow_le_pow_right (by decide) (Nat.sub_le _ _)
  simp only [clz32_eq_iff hc]
  rw [card_toNat_mem_Ico htop]
  omega

/-- Settles O38: the bracket is an iff, so it gives the bounds of a word, its top bit and the words of each count. -/
theorem clzBracketsItsOperand : Obligations.ClzBracketsItsOperand := by
  refine ⟨by decide, by decide, by decide, fun x hx => ?_, fun c hc => ⟨fun x => clz32_eq_iff hc, card_clz32_eq hc⟩⟩
  have hlt : clz32 x < 32 := clz32_lt_iff.2 hx
  obtain ⟨hlo, hhi⟩ := (clz32_eq_iff (x := x) (Nat.le_of_lt_succ hlt)).1 rfl
  exact ⟨hlo, hhi, getLsbD_clz32 hlt, fun j hj => getLsbD_eq_false_of_clz32 (by omega)⟩

/-- The test of a step of `clz_ref` (R63): the top `k` bits are zero. -/
theorem shiftRight_eq_zero_iff {x : Word32} {k : Nat} (hk : k ≤ 32) : x >>> (32 - k) = 0 ↔ k ≤ clz32 x := by
  rw [le_clz32_iff hk, ← word_toNat_eq_zero_iff, BitVec.toNat_ushiftRight, Nat.shiftRight_eq_div_pow,
    Nat.div_eq_zero_iff_lt (by positivity)]

/-- Shifting zeros out at the top takes them off the count of a nonzero word. -/
theorem clz32_shiftLeft {x : Word32} {k : Nat} (hx : clz32 x < 32) (hk : k ≤ clz32 x) :
    clz32 (x <<< k) = clz32 x - k := by
  have hfits : x.toNat < 2 ^ (32 - k) := (le_clz32_iff (by omega)).1 hk
  have hshift : (x <<< k).toNat = x.toNat * 2 ^ k := by
    rw [BitVec.toNat_shiftLeft, Nat.shiftLeft_eq, Nat.mod_eq_of_lt]
    calc x.toNat * 2 ^ k < 2 ^ (32 - k) * 2 ^ k := Nat.mul_lt_mul_of_pos_right hfits (by positivity)
      _ = 2 ^ 32 := by rw [← pow_add]; congr 1; omega
  obtain ⟨hlo, hhi⟩ := (clz32_eq_iff (x := x) (Nat.le_of_lt_succ hx)).1 rfl
  have hlow : 31 - (clz32 x - k) = 31 - clz32 x + k := by omega
  have hhigh : 32 - (clz32 x - k) = 32 - clz32 x + k := by omega
  rw [clz32_eq_iff (by omega), hshift, hlow, hhigh, pow_add, pow_add]
  exact ⟨Nat.mul_le_mul_right _ hlo, Nat.mul_lt_mul_of_pos_right hhi (by positivity)⟩

/-- The invariant of the search of `clz_ref` for the count of `x`: the zeros counted and those left in the window make the
count, and fewer than `k` are left. -/
def WindowCounts (x : Word32) (k : Nat) (w : Nat × Word32) : Prop :=
  w.1 + clz32 w.2 = clz32 x ∧ clz32 w.2 < k

/-- Each of the first four steps halves the range that the count left lies in (R63). -/
theorem windowCounts_step {x : Word32} {k : Nat} {w : Nat × Word32} (hk : k ≤ 16) (h : WindowCounts x (2 * k) w) :
    WindowCounts x k (clzRefStep k w) := by
  obtain ⟨hsum, hlt⟩ := h
  by_cases hz : k ≤ clz32 w.2
  · rw [clzRefStep, if_pos ((shiftRight_eq_zero_iff (by omega)).2 hz), WindowCounts,
      clz32_shiftLeft (by omega) hz]
    omega
  · rw [clzRefStep, if_neg (mt (shiftRight_eq_zero_iff (by omega)).1 hz)]
    exact ⟨hsum, not_le.1 hz⟩

/-- After the four steps at most one zero is left to count. -/
theorem windowCounts_clzRefWindow {x : Word32} (h : x ≠ 0) : WindowCounts x 2 (clzRefWindow x) := by
  have hstart : WindowCounts x 32 (0, x) := ⟨Nat.zero_add _, clz32_lt_iff.2 h⟩
  have h16 := windowCounts_step (k := 16) (by decide) hstart
  have h8 := windowCounts_step (k := 8) (by decide) h16
  have h4 := windowCounts_step (k := 4) (by decide) h8
  exact windowCounts_step (k := 2) (by decide) h4

/-- The fifth test of `clz_ref` (R63): the top bit is 1 iff there is no zero to count. -/
theorem getLsbD_31_iff {x : Word32} : x.getLsbD 31 = true ↔ clz32 x = 0 := by
  constructor
  · contrapose
    intro hne
    rw [getLsbD_eq_false_of_clz32 (by omega)]
    decide
  · intro h
    simpa only [h] using getLsbD_clz32 (x := x) (by omega)

/-- Settles O39: the search keeps its invariant, and the fifth test decides the zero that may be left. -/
theorem clzReferenceAgrees : Obligations.ClzReferenceAgrees := by
  intro x
  by_cases hx : x = 0
  · rw [clzRef, if_pos hx, hx, clz32_of_zero rfl]
  · obtain ⟨hsum, hlt⟩ := windowCounts_clzRefWindow hx
    rw [clzRef, if_neg hx]
    simp only [getLsbD_31_iff]
    split_ifs <;> omega

/-- The count fits the result of `CLZ` (R54, R60). -/
theorem clzValue_eq_ofNat (opa : Word64) : clzValue opa = BitVec.ofNat 64 (clz32 (lowHalf opa)) := by
  have hle := clz32_le (lowHalf opa)
  apply BitVec.eq_of_toNat_eq
  rw [clzValue, clzOperand, zext64_toNat (by decide), clzUnit_toNat, BitVec.toNat_ofNat, Nat.mod_eq_of_lt (by omega)]

/-- Settles O26: the accept edge latches the count of the low half of `opa`, and the last edge publishes it. -/
theorem clzCompletesWithTheCount : Obligations.ClzCompletesWithTheCount := by
  intro opa opb s hi hb hpos
  refine ⟨clz32 (lowHalf opa), acceptEdge opClz opa opb (clzValue opa) s, fun hzero => ?_, fun hne => ?_,
    exec_idle hi hb, ?_, fun ports hlen hps => ?_⟩
  · exact clz32_of_zero (by rwa [lowHalf_toNat])
  · rw [← lowHalf_toNat] at hne ⊢
    have hle : clz32 (lowHalf opa) ≤ 31 := Nat.le_of_lt_succ (clz32_lt_iff.2 (mt word_toNat_eq_zero_iff.2 hne))
    exact ⟨hle, (clz32_eq_iff hle).1 rfl⟩
  · rw [clzValue_eq_ofNat]
    rfl
  · rw [runEdges_acceptEdge_complete opClz opa opb _ hi hpos hlen hps, ← clzValue_eq_ofNat]
    rfl

end Sys2Proof.Machine
end

section
/-! `mul32x32_to_64` (`41_mul.md` R66 to R69): the exact product, its two halves, and the long multiplication that
computes it. -/

namespace Sys2Proof.Machine

/-- No product of two words is above the square of the largest word (R67). -/
theorem product_le (a b : Word32) : a.toNat * b.toNat ≤ 2 ^ 64 - 2 ^ 33 + 1 := by
  have ha : a.toNat ≤ 2 ^ 32 - 1 := Nat.le_pred_of_lt a.isLt
  have hb : b.toNat ≤ 2 ^ 32 - 1 := Nat.le_pred_of_lt b.isLt
  calc a.toNat * b.toNat ≤ (2 ^ 32 - 1) * (2 ^ 32 - 1) := Nat.mul_le_mul ha hb
    _ = 2 ^ 64 - 2 ^ 33 + 1 := by norm_num

/-- Settles O40: the product fits 64 bits, and a half of a double word is its quotient or its rest by `2 ^ 32`. -/
theorem productIsExactInBothHalves : Obligations.ProductIsExactInBothHalves := by
  intro a b
  rw [highHalf_toNat, lowHalf_toNat, mul64_toNat]
  exact ⟨rfl, product_le a b, rfl, rfl⟩

/-- Settles O27: the accept edge latches the product of the low half of `opa` and `opb`, and the last edge publishes
it. -/
theorem mulCompletesWithTheProduct : Obligations.MulCompletesWithTheProduct := by
  intro opa opb s hi hb hpos
  refine ⟨mulValue opa opb, acceptEdge opMul opa opb (mulValue opa opb) s, ?_, exec_idle hi hb, rfl,
    fun ports hlen hps => runEdges_acceptEdge_complete opMul opa opb _ hi hpos hlen hps⟩
  rw [mulValue, mulOperands, mul64_toNat, lowHalf_toNat]

/-- An iteration of `mul_ref` adds the shifted multiplicand where the multiplier has a 1, up to the wrap of the 64-bit
accumulator (R68). -/
theorem mulRefLoop_succ_toNat (a b : Word32) (k : Nat) :
    (mulRefLoop a b (k + 1)).toNat
      = ((mulRefLoop a b k).toNat + a.toNat * (2 ^ k * (b.toNat.testBit k).toNat)) % 2 ^ 64 := by
  cases hbit : b.toNat.testBit k with
  | false => simp [mulRefLoop, BitVec.getLsbD, hbit, Nat.mod_eq_of_lt (mulRefLoop a b k).isLt]
  | true => simp [mulRefLoop, BitVec.getLsbD, hbit, Nat.shiftLeft_eq]

/-- The accumulator never wraps: after `k` iterations it is the product with the low `k` bits of the multiplier, which is
at most the whole product (R68). -/
theorem mulRefLoop_toNat (a b : Word32) (k : Nat) : (mulRefLoop a b k).toNat = a.toNat * (b.toNat % 2 ^ k) := by
  induction k with
  | zero => simp [mulRefLoop, Nat.mod_one]
  | succ k ih =>
    have hfits : a.toNat * (b.toNat % 2 ^ (k + 1)) < 2 ^ 64 :=
      calc a.toNat * (b.toNat % 2 ^ (k + 1)) ≤ a.toNat * b.toNat := Nat.mul_le_mul_left _ (Nat.mod_le _ _)
        _ ≤ 2 ^ 64 - 2 ^ 33 + 1 := product_le a b
        _ < 2 ^ 64 := by norm_num
    rw [mulRefLoop_succ_toNat, ih, ← Nat.mul_add, Nat.toNat_testBit, ← Nat.mod_pow_succ,
      Nat.mod_eq_of_lt hfits]

/-- Settles O41: the loop keeps its partial product for every number of iterations, and 32 of them use every bit of the
multiplier. -/
theorem mulReferenceAgrees : Obligations.MulReferenceAgrees := by
  intro a b
  refine ⟨fun k _ => mulRefLoop_toNat a b k, BitVec.eq_of_toNat_eq ?_⟩
  rw [mulRef, Config.mulIters, mulRefLoop_toNat, mul64_toNat, Nat.mod_eq_of_lt b.isLt]

end Sys2Proof.Machine
end

section
/-! `divider_64by32` (`42_div.md` R70 to R73): the quotient by its bracket, and the restoring long division that computes
it. -/

namespace Sys2Proof.Machine

/-- The quotient by 0 is the sentinel (R71). -/
theorem div64_zero (n : Word64) : div64 n 0 = 0 := if_pos rfl

theorem word_toNat_pos {x : Word32} (h : x ≠ 0) : 0 < x.toNat := Nat.pos_of_ne_zero (mt word_toNat_eq_zero_iff.1 h)

/-- R73: the quotient is bracketed as the floor of a division is. -/
theorem div64_bracket {d : Word32} (n : Word64) (h : d ≠ 0) :
    (div64 n d).toNat * d.toNat ≤ n.toNat ∧ n.toNat < ((div64 n d).toNat + 1) * d.toNat := by
  rw [div64_toNat n h]
  exact ⟨Nat.div_mul_le_self _ _, (Nat.div_lt_iff_lt_mul (word_toNat_pos h)).1 (Nat.lt_succ_self _)⟩

/-- Settles O42: the quotient is the floor, and the bracket fixes the floor. -/
theorem quotientIsUnique : Obligations.QuotientIsUnique := by
  intro n d
  refine ⟨fun h => h ▸ div64_zero n, fun h => ?_⟩
  obtain ⟨hlo, hhi⟩ := div64_bracket n h
  refine ⟨hlo, hhi, fun q hq hq' => ?_⟩
  rw [div64_toNat n h, Nat.div_eq_of_lt_le hq hq']

/-- Settles O28: the accept edge latches the quotient of `opa` by `opb`, or the sentinel, and the last edge publishes
it. -/
theorem divCompletesWithTheQuotient : Obligations.DivCompletesWithTheQuotient := by
  intro opa opb s hi hb hpos
  refine ⟨div64 opa opb, acceptEdge opDiv opa opb (div64 opa opb) s, fun hzero => ?_, fun hne => ?_,
    exec_idle hi hb, rfl, fun ports hlen hps => runEdges_acceptEdge_complete opDiv opa opb _ hi hpos hlen hps⟩
  · rw [word_toNat_eq_zero_iff.1 hzero, div64_zero]
    rfl
  · exact div64_bracket opa (mt word_toNat_eq_zero_iff.2 hne)

/-- Bringing down a bit doubles a partial remainder that leaves room for it, and adds the bit (R72). -/
theorem toNat_bringDown {r : Word64} (b : Bool) (h : r.toNat < 2 ^ 63) :
    ((r <<< 1) ||| (BitVec.ofBool b).setWidth 64).toNat = 2 * r.toNat + b.toNat := by
  have hbit : b.toNat < 2 ^ 1 := Bool.toNat_lt b
  have hshift : (r <<< 1).toNat = 2 ^ 1 * r.toNat := by
    rw [BitVec.toNat_shiftLeft, Nat.shiftLeft_eq]
    omega
  have hset : ((BitVec.ofBool b).setWidth 64).toNat = b.toNat := by
    rw [BitVec.toNat_setWidth, BitVec.toNat_ofBool]
    omega
  rw [BitVec.toNat_or, hshift, hset, ← Nat.two_pow_add_eq_or_of_lt hbit, pow_one]

/-- Setting bit `i` of a quotient whose bits up to `i` are 0 adds that bit (R72). -/
theorem toNat_setQuotientBit {q : Word64} {i a : Nat} (hi : i < 64) (hq : q.toNat = 2 ^ (i + 1) * a) :
    (q ||| (1#64 <<< i)).toNat = 2 ^ i * (2 * a + 1) := by
  have hbit : 2 ^ i < 2 ^ (i + 1) := Nat.pow_lt_pow_succ (by decide)
  rw [BitVec.toNat_or, hq, ← BitVec.twoPow_eq, BitVec.toNat_twoPow_of_lt hi, ← Nat.two_pow_add_eq_or_of_lt hbit]
  ring

/-- The invariant of `div_ref` with the low `i` bits of the dividend still to come (R72): the remainder, and the bits of
the quotient from `i` up, are those of the division of the bits brought down so far. -/
def DividesPrefix (n : Word64) (d : Word32) (i : Nat) (qr : Word64 × Word64) : Prop :=
  qr.1.toNat = 2 ^ i * (n.toNat / 2 ^ i / d.toNat) ∧ qr.2.toNat = n.toNat / 2 ^ i % d.toNat

/-- The prefix of a dividend that is one bit longer. -/
theorem prefix_bringDown (n : Word64) (i : Nat) :
    n.toNat / 2 ^ i = 2 * (n.toNat / 2 ^ (i + 1)) + (n.getLsbD i).toNat := by
  rw [BitVec.getLsbD, Nat.toNat_testBit, pow_succ, ← Nat.div_div_eq_div_mul, Nat.div_add_mod]

/-- Long division: the next remainder and quotient bit come from the remainder so far. -/
theorem div_mod_bringDown {p d : Nat} (b : Nat) (hd : 0 < d) :
    (2 * p + b) / d = 2 * (p / d) + (2 * (p % d) + b) / d ∧ (2 * p + b) % d = (2 * (p % d) + b) % d := by
  have hsplit : 2 * p + b = 2 * (p % d) + b + d * (2 * (p / d)) :=
    calc 2 * p + b = 2 * (p % d + d * (p / d)) + b := by rw [Nat.mod_add_div]
      _ = 2 * (p % d) + b + d * (2 * (p / d)) := by ring
  rw [hsplit, Nat.add_mul_div_left _ _ hd, Nat.add_mul_mod_self_left, Nat.add_comm]
  exact ⟨rfl, rfl⟩

/-- Below twice the divisor, a trial subtraction that is kept is the whole division. -/
theorem div_mod_of_lt_two_mul {r d : Nat} (hle : d ≤ r) (hlt : r < 2 * d) : r / d = 1 ∧ r % d = r - d :=
  (Nat.div_mod_unique (by omega)).2 (by omega)

/-- An iteration of `div_ref` divides the prefix with one bit more (R72): before the trial the remainder is below twice
the divisor, so that one trial decides the quotient bit. -/
theorem dividesPrefix_step {n : Word64} {d : Word32} {i : Nat} {qr : Word64 × Word64} (hd : 0 < d.toNat) (hi : i < 64)
    (h : DividesPrefix n d (i + 1) qr) : DividesPrefix n d i (divRefStep n d i qr) := by
  obtain ⟨hq, hr⟩ := h
  have hlt : qr.2.toNat < d.toNat := hr ▸ Nat.mod_lt _ hd
  have hbit := Bool.toNat_lt (n.getLsbD i)
  have hdown := toNat_bringDown (n.getLsbD i) (r := qr.2) (by omega)
  have htwice : 2 * qr.2.toNat + (n.getLsbD i).toNat < 2 * d.toNat := by omega
  obtain ⟨hdiv, hmod⟩ := div_mod_bringDown (p := n.toNat / 2 ^ (i + 1)) (n.getLsbD i).toNat hd
  rw [← prefix_bringDown, ← hr, ← hdown] at hdiv hmod
  rw [← hdown] at htwice
  simp only [DividesPrefix, divRefStep, hdiv, hmod, BitVec.le_def, zext64_toNat (n := 32) (by decide)]
  split_ifs with hle
  · obtain ⟨hone, hrest⟩ := div_mod_of_lt_two_mul hle htwice
    have hsub : zext64 d ≤ (qr.2 <<< 1) ||| (BitVec.ofBool (n.getLsbD i)).setWidth 64 := by
      rwa [BitVec.le_def, zext64_toNat (by decide)]
    rw [toNat_setQuotientBit hi hq, BitVec.toNat_sub_of_le hsub, zext64_toNat (by decide), hone, hrest]
    exact ⟨rfl, rfl⟩
  · rw [Nat.div_eq_of_lt (not_le.1 hle), Nat.mod_eq_of_lt (not_le.1 hle), hq, pow_succ, mul_assoc]
    exact ⟨rfl, rfl⟩

/-- After `k` iterations the low `64 - k` bits of the dividend are still to come (R72). -/
theorem dividesPrefix_divRefLoop (n : Word64) {d : Word32} (hd : 0 < d.toNat) {k : Nat} (hk : k ≤ 64) :
    DividesPrefix n d (64 - k) (divRefLoop n d k) := by
  induction k with
  | zero => simp [DividesPrefix, divRefLoop, Nat.div_eq_of_lt n.isLt]
  | succ k ih =>
    have hsucc : 64 - k = 63 - k + 1 := by omega
    have hprev := ih (by omega)
    rw [hsucc] at hprev
    exact Nat.succ_sub_succ 63 k ▸ dividesPrefix_step hd (by omega) hprev

/-- Settles O43: the loop keeps its invariant, and after 64 iterations no bit of the dividend is left to bring down. -/
theorem divReferenceAgrees : Obligations.DivReferenceAgrees := by
  intro n d
  by_cases h : d = 0
  · rw [divRef, if_pos h, h, div64_zero]
    exact ⟨rfl, absurd rfl⟩
  · have hpos := word_toNat_pos h
    obtain ⟨hq, hr⟩ := dividesPrefix_divRefLoop n hpos le_rfl
    rw [Nat.sub_self, pow_zero, Nat.div_one] at hq hr
    refine ⟨BitVec.eq_of_toNat_eq ?_, fun _ => ⟨fun k hk => ?_, hr⟩⟩
    · rw [divRef, if_neg h, Config.divIters, hq, div64_toNat n h, Nat.one_mul]
    · obtain ⟨_, hrem⟩ := dividesPrefix_divRefLoop n hpos hk
      exact hrem ▸ Nat.mod_lt _ hpos

end Sys2Proof.Machine
end

section
/-! The command `RSQRT` and the two special cases of its engine (`43_rsqrt.md` R74, R76, R77). -/

namespace Sys2Proof.Machine

/-- Settles O29: the accept edge latches the estimate for the low half of `opa`, and the last edge publishes it. -/
theorem rsqrtCompletesWithTheEstimate : Obligations.RsqrtCompletesWithTheEstimate := by
  intro opa opb s hi hb hpos
  refine ⟨rsqrtValue s.rom opa, acceptEdge opRsqrt opa opb (rsqrtValue s.rom opa) s, ?_, exec_idle hi hb, rfl,
    fun ports hlen hps => runEdges_acceptEdge_complete opRsqrt opa opb _ hi hpos hlen hps⟩
  rw [rsqrtValue, rsqrtOperand, zext64_toNat (by decide), lowHalf_eq_ofNat]

@[simp] theorem rsqrt_zero (rom : Rom) : rsqrt rom 0 = 0xFFFFFFFF#32 := rfl

@[simp] theorem rsqrt_one (rom : Rom) : rsqrt rom 1 = 65536#32 := rfl

/-- Settles O46: the special cases come before any use of the ROM's contents, and the general path at 1 is run. -/
theorem rsqrtSpecialCases : Obligations.RsqrtSpecialCases :=
  fun rom => ⟨rsqrt_zero rom, rfl, rsqrt_one rom, rfl, by decide, by decide, by decide⟩

end Sys2Proof.Machine
end

section
/-! The general path of the engine for any ROM: its exponent and what it uses (`43_rsqrt.md` R78, R83, R90, R91). -/

namespace Sys2Proof.Machine

/-- A word of 2 or more is neither special case. -/
theorem ne_zero_and_ne_one {x : Word32} (h : 2 ≤ x.toNat) : x ≠ 0 ∧ x ≠ 1 := by
  constructor <;> rintro rfl <;> exact absurd h (by decide)

/-- From 2 on the engine takes its general path (R75). -/
theorem rsqrt_general (rom : Rom) {x : Word32} (h : 2 ≤ x.toNat) : rsqrt rom x = (engineRun rom x).newton2.y := by
  obtain ⟨h0, h1⟩ := ne_zero_and_ne_one h
  rw [rsqrt, if_neg h0, if_neg h1]

/-- The exponent of a word of 2 or more is its octave, which is not octave 0 (R78). -/
theorem exponent_octave {x : Word32} (h : 2 ≤ x.toNat) :
    1 ≤ (exponent x).val ∧ 2 ^ (exponent x).val ≤ x.toNat ∧ x.toNat < 2 ^ ((exponent x).val + 1) := by
  obtain ⟨he, hpos, hlo, hhi⟩ := exponent_spec h
  rw [he]
  exact ⟨hpos, hlo, hhi⟩

/-- Settles O47: the exponent is the octave, and octave 0 holds 1 alone. -/
theorem exponentIsTheTopBit : Obligations.ExponentIsTheTopBit := by
  refine ⟨fun x h => ?_, fun x h => ?_⟩
  · obtain ⟨hpos, hlo, hhi⟩ := exponent_octave h
    exact ⟨rfl, hpos, Nat.le_of_lt_succ (exponent x).isLt, hlo, hhi⟩
  · have hcount : 31 - clz32 x = 0 ↔ clz32 x = 31 := by
      have := clz32_lt_iff.2 h
      omega
    have hone : x.toNat = 1 ↔ x = 1 := BitVec.toNat_inj (y := 1)
    rw [hcount, clz32_eq_iff le_rfl, ← hone]
    omega

/-- What the engine uses on its general path (R83, R91). -/
theorem engineUses_general (rom : Rom) {x : Word32} (h : 2 ≤ x.toNat) :
    engineUses rom x = [.clz x, .rom (exponent x).val]
      ++ ((engineRun rom x).interp.map (interpolationUses (exponent x))).getD []
      ++ newtonUses x (startEstimate (engineRun rom x).y0 (engineRun rom x).interp) (engineRun rom x).newton1
      ++ newtonUses x (engineRun rom x).newton1.y (engineRun rom x).newton2 := by
  rw [engineUses, if_neg (not_or.2 (ne_zero_and_ne_one h))]
  dsimp only
  cases (engineRun rom x).interp <;> rfl

/-- Settles O54: apart from interpolation the uses are fixed, and interpolation reads the ROM in an octave below 31
only. -/
theorem engineUsesAreBounded : Obligations.EngineUsesAreBounded := by
  intro rom x h
  rw [engineUses_general rom h]
  cases (engineRun rom x).interp with
  | none => simp [newtonUses]
  | some k =>
    by_cases htop : (exponent x).val = 31
    · simp [newtonUses, interpolationUses, htop]
    · have hle : (exponent x).val ≤ 30 := by omega
      simp [newtonUses, interpolationUses, htop, hle]

end Sys2Proof.Machine
end

section
/-! The listed values of `RSQRT` (`43_rsqrt.md` R86, R87). -/

namespace Sys2Proof.Machine

/-- At the default table, the result at a power of two is its entry but for the five entries that were rounded up (R86). -/
theorem rsqrt_two_pow (n : Fin 32) :
    (rsqrt defaultTable (BitVec.ofNat 32 (2 ^ n.val))).toNat
      = (romRead defaultTable n).toNat - if n.val ∈ [7, 19, 23, 27, 29] then 1 else 0 := by
  revert n; decide

/-- Settles O52: the results are known from the table, and each is held against its bounds. -/
theorem rsqrtAtPowersOfTwo : Obligations.RsqrtAtPowersOfTwo := by
  intro n
  dsimp only
  rw [rsqrt_two_pow]
  revert n; decide

/-- Settles O53: both results of each pair are run. -/
theorem rsqrtIsNotMonotone : Obligations.RsqrtIsNotMonotone := by
  unfold Obligations.RsqrtIsNotMonotone
  decide

end Sys2Proof.Machine
end

section
/-! Interpolation at the default table (`43_rsqrt.md` R79, R80). -/

namespace Sys2Proof.Machine

theorem nextEntry_of_lt (rom : Rom) {e : Fin 32} (h : e.val + 1 < 32) :
    nextEntry rom e = romRead rom ⟨e.val + 1, h⟩ := dif_pos h

theorem nextEntry_of_top (rom : Rom) {e : Fin 32} (h : e.val = 31) : nextEntry rom e = 0 := dif_neg (by omega)

/-- From each entry to the next, or from the last entry to 0, the default table drops by at least 1 and at most 19195
(R38, R80). -/
theorem nextEntry_drop (e : Fin 32) :
    (nextEntry defaultTable e).toNat + 1 ≤ (romRead defaultTable e).toNat
    ∧ (romRead defaultTable e).toNat ≤ (nextEntry defaultTable e).toNat + 19195 := by
  revert e; decide

/-- The position of `x` in octave `e`, in units of `2^-16` of the octave (R80). -/
def fraction (e x : Nat) : Nat := (x - 2 ^ e) * 2 ^ 16 / 2 ^ e

theorem fraction_lt {e x : Nat} (h : x < 2 ^ (e + 1)) : fraction e x < 2 ^ 16 := by
  rw [fraction, Nat.div_lt_iff_lt_mul (by positivity), Nat.mul_comm]
  exact Nat.mul_lt_mul_of_pos_left (by omega) (by positivity)

/-- The first `2^(e-16)` words of an octave all have the fraction 0 (R80). -/
theorem fraction_eq_zero {e x : Nat} (he : 16 ≤ e) (h : x - 2 ^ e < 2 ^ (e - 16)) : fraction e x = 0 := by
  rw [fraction, Nat.div_eq_zero_iff_lt (by positivity)]
  calc (x - 2 ^ e) * 2 ^ 16 < 2 ^ (e - 16) * 2 ^ 16 := Nat.mul_lt_mul_of_pos_right h (by positivity)
    _ = 2 ^ e := by rw [← pow_add, Nat.sub_add_cancel he]

@[simp] theorem fraction_two_pow (e : Nat) : fraction e (2 ^ e) = 0 := by simp [fraction]

/-- What interpolation takes off the entry: the fraction of the drop to the next entry, rounded down (R80). -/
def interpolationDrop (e : Fin 32) (x : Nat) : Nat :=
  ((romRead defaultTable e).toNat - (nextEntry defaultTable e).toNat) * fraction e.val x / 2 ^ 16

/-- A fraction below 1 of the drop is less than the drop (R80). -/
theorem interpolationDrop_lt {e : Fin 32} {x : Nat} (h : x < 2 ^ (e.val + 1)) :
    interpolationDrop e x < (romRead defaultTable e).toNat - (nextEntry defaultTable e).toNat := by
  obtain ⟨hleast, _⟩ := nextEntry_drop e
  rw [interpolationDrop, Nat.div_lt_iff_lt_mul (by positivity)]
  exact Nat.mul_lt_mul_of_pos_left (fraction_lt h) (by omega)

/-- The values of interpolation as natural numbers: in the octave of `e` no stage wraps or loses a bit (R80). -/
theorem interpolate_toNat {e : Fin 32} {x : Word32} (h : x.toNat < 2 ^ (e.val + 1)) :
    (interpolate defaultTable e x).delta.toNat
        = (romRead defaultTable e).toNat - (nextEntry defaultTable e).toNat
    ∧ (interpolate defaultTable e x).frac.toNat = fraction e.val x.toNat
    ∧ (interpolate defaultTable e x).drop.toNat = interpolationDrop e x.toNat
    ∧ (interpolate defaultTable e x).y.toNat = (romRead defaultTable e).toNat - interpolationDrop e x.toNat := by
  have hentry := (romRead defaultTable e).isLt
  have hfrac : (interpolate defaultTable e x).frac.toNat = fraction e.val x.toNat :=
    Nat.mod_eq_of_lt ((fraction_lt h).trans (by decide))
  have hdelta : (interpolate defaultTable e x).delta.toNat
      = (romRead defaultTable e).toNat - (nextEntry defaultTable e).toNat :=
    Nat.mod_eq_of_lt (lt_of_le_of_lt (Nat.sub_le _ _) hentry)
  have hdrop : (interpolate defaultTable e x).drop.toNat = interpolationDrop e x.toNat := by
    calc (interpolate defaultTable e x).drop.toNat
        = (mul64 (interpolate defaultTable e x).delta (interpolate defaultTable e x).frac >>> 16).toNat % 2 ^ 32 :=
          trunc32_toNat _
      _ = interpolationDrop e x.toNat % 2 ^ 32 := by
          rw [BitVec.toNat_ushiftRight, Nat.shiftRight_eq_div_pow, mul64_toNat, hdelta, hfrac, interpolationDrop]
      _ = interpolationDrop e x.toNat := Nat.mod_eq_of_lt (by have := interpolationDrop_lt h; omega)
  refine ⟨hdelta, hfrac, hdrop, ?_⟩
  rw [← hdrop]
  exact Nat.mod_eq_of_lt (lt_of_le_of_lt (Nat.sub_le _ _) hentry)

/-- Settles O48: every bound comes from the fraction being below 1 and the drop to the next entry being 1 to 19195. -/
theorem interpolationStaysBetweenEntries : Obligations.InterpolationStaysBetweenEntries := by
  intro x hx
  obtain ⟨_, _, hhi⟩ := exponent_octave hx
  obtain ⟨hdelta, hfrac, hdrop, hy⟩ := interpolate_toNat hhi
  obtain ⟨hleast, hmost⟩ := nextEntry_drop (exponent x)
  have hlt := interpolationDrop_lt hhi
  have hfracLt := fraction_lt hhi
  have hprod : (interpolate defaultTable (exponent x) x).delta.toNat * fraction (exponent x).val x.toNat < 2 ^ 31 :=
    calc _ ≤ 19195 * 65535 := Nat.mul_le_mul (by omega) (by omega)
      _ < 2 ^ 31 := by norm_num
  have hnext : (interpolate defaultTable (exponent x) x).yNext = nextEntry defaultTable (exponent x) := rfl
  have htop (he : (exponent x).val = 31) : (interpolate defaultTable (exponent x) x).delta.toNat = 1 := by
    rw [hdelta, show exponent x = 31 from Fin.ext he]
    rfl
  refine ⟨rfl, rfl, nextEntry_of_lt _, nextEntry_of_top _, by rw [hdelta, hnext], ?_, ?_, htop, hfrac, ?_, hprod, ?_,
    ?_, ?_, ?_, ?_, fun he hsmall => ?_⟩
  · rw [hnext]; omega
  · omega
  · exact Nat.le_of_lt_succ hfracLt
  · rw [hdrop, hdelta]; rfl
  · omega
  · rw [hy, hdrop]
  · rw [hnext]; omega
  · omega
  · have hzero : fraction (exponent x).val x.toNat = 0 := fraction_eq_zero he.le hsmall
    refine ⟨BitVec.eq_of_toNat_eq (hfrac.trans hzero), BitVec.eq_of_toNat_eq ?_⟩
    rw [hy, interpolationDrop, hzero, Nat.mul_zero, Nat.zero_div, Nat.sub_zero]

end Sys2Proof.Machine
end

section
/-! Newton iteration in exact arithmetic, and how it compares with the true value `65536 / sqrt(x)` (`43_rsqrt.md` R81,
R84). -/

namespace Sys2Proof.Machine

/-- One Newton-Raphson iteration in exact arithmetic: R81 without its truncations. -/
def exactNewton (x y : Nat) : Nat := y * (196608 - x * (y * y) / 2 ^ 16) / 2 ^ 17

/-- The estimate `y` for `x` is within the bound of R84 on entry to an iteration, and below 1.5 times the true value: squared,
to stay within the naturals. The second keeps `xy2` at or below 147455 (R84). -/
def Fits (x y : Nat) : Prop := y ≤ 46341 ∧ x * (y * y) < 147456 * 2 ^ 16

theorem xy2_le {x y : Nat} (h : Fits x y) : x * (y * y) / 2 ^ 16 ≤ 147455 :=
  Nat.le_of_lt_succ ((Nat.div_lt_iff_lt_mul (by positivity)).2 h.2)

/-- For an estimate that fits, the truncations of R81 discard nothing and the subtraction does not wrap (R84). -/
theorem newton_toNat_of_fits {x y : Word32} (h : Fits x.toNat y.toNat) :
    (newton x y).y2.toNat = y.toNat * y.toNat
    ∧ (newton x y).xy2.toNat = x.toNat * (y.toNat * y.toNat) / 2 ^ 16
    ∧ (newton x y).s.toNat = 196608 - x.toNat * (y.toNat * y.toNat) / 2 ^ 16
    ∧ (newton x y).y.toNat = exactNewton x.toNat y.toNat := by
  obtain ⟨hy2, hxy2, hs, hy⟩ := newton_toNat x y
  have hle := xy2_le h
  have hsq : y.toNat * y.toNat ≤ 46341 * 46341 := Nat.mul_le_mul h.1 h.1
  rw [Nat.mod_eq_of_lt (by omega)] at hy2
  rw [hy2, Nat.mod_eq_of_lt (by omega)] at hxy2
  rw [hxy2] at hs
  have hs' : (newton x y).s.toNat = 196608 - x.toNat * (y.toNat * y.toNat) / 2 ^ 16 := by omega
  have hys : y.toNat * (newton x y).s.toNat ≤ 46341 * 196608 := Nat.mul_le_mul h.1 (by omega)
  rw [Nat.mod_eq_of_lt (by omega), hs'] at hy
  exact ⟨hy2, hxy2, hs', hy⟩

/-- The true value `65536 / sqrt(x)` that `RSQRT` approximates (R74, R88). -/
noncomputable def trueValue (x : Nat) : ℝ := 65536 / Real.sqrt x

theorem trueValue_pos {x : Nat} (h : 0 < x) : 0 < trueValue x := by
  have : (0 : ℝ) < x := by exact_mod_cast h
  unfold trueValue; positivity

theorem trueValue_sq_mul {x : Nat} (h : 0 < x) : trueValue x ^ 2 * x = 2 ^ 32 := by
  have hx : (0 : ℝ) < x := by exact_mod_cast h
  rw [trueValue, div_pow, Real.sq_sqrt hx.le, div_mul_cancel₀ _ hx.ne']
  norm_num

section
variable {x y : Nat} {t : ℝ}

/-- The floors of one exact iteration, as inequalities: the inner one makes the result larger by less than `y / 2^17`, the
outer one makes it smaller by less than 1. -/
theorem exactNewton_brackets (h : Fits x y) :
    (2 ^ 33 * exactNewton x y : ℝ) ≤ y * (196609 * 2 ^ 16 - x * y ^ 2)
    ∧ (y * (196608 * 2 ^ 16 - x * y ^ 2) : ℝ) < 2 ^ 33 * (exactNewton x y + 1) := by
  have hw := xy2_le h
  have hwlo : x * (y * y) / 2 ^ 16 * 2 ^ 16 ≤ x * (y * y) := Nat.div_mul_le_self _ _
  have hwhi : x * (y * y) < (x * (y * y) / 2 ^ 16 + 1) * 2 ^ 16 := by omega
  have hnlo : exactNewton x y * 2 ^ 17 ≤ y * (196608 - x * (y * y) / 2 ^ 16) := Nat.div_mul_le_self _ _
  have hnhi : y * (196608 - x * (y * y) / 2 ^ 16) < (exactNewton x y + 1) * 2 ^ 17 :=
    Nat.lt_mul_of_div_lt (Nat.lt_succ_self _) (by positivity)
  generalize x * (y * y) / 2 ^ 16 = w at *
  rify [hw.trans (by norm_num : 147455 ≤ 196608)] at hwlo hwhi hnlo hnhi
  have hy : (0 : ℝ) ≤ y := by positivity
  constructor
  · linarith [mul_le_mul_of_nonneg_left hwhi.le hy]
  · linarith [mul_le_mul_of_nonneg_left hwlo hy]

/-- `x` is eliminated from the brackets by the true value `t`: one iteration is `y * (3 - (y/t)^2) / 2`, up to its
floors. -/
theorem exactNewton_near (h : Fits x y) (hx : t ^ 2 * x = 2 ^ 32) (ht : 0 < t) :
    2 * t ^ 2 * exactNewton x y ≤ y * (3 * t ^ 2 - y ^ 2) + t ^ 2 * y / 2 ^ 16
    ∧ y * (3 * t ^ 2 - y ^ 2) < 2 * t ^ 2 * (exactNewton x y + 1) := by
  obtain ⟨hup, hlow⟩ := exactNewton_brackets h
  have ht2 : 0 < t ^ 2 := by positivity
  have helim : t ^ 2 * (y * (x * y ^ 2)) = 2 ^ 32 * (y : ℝ) ^ 3 := by rw [← hx]; ring
  constructor
  · linarith [mul_le_mul_of_nonneg_left hup ht2.le]
  · linarith [mul_lt_mul_of_pos_left hlow ht2]

/-- An estimate that fits is below 1.5 times the true value. -/
theorem Fits.lt_trueValue (h : Fits x y) (hx : t ^ 2 * x = 2 ^ 32) (ht : 0 < t) : (y : ℝ) < 3 / 2 * t := by
  have hfit : (x * (y * y) : ℝ) < 147456 * 2 ^ 16 := by exact_mod_cast h.2
  have hx0 : (0 : ℝ) < x := by
    by_contra hneg
    nlinarith [sq_nonneg t]
  refine lt_of_pow_lt_pow_left₀ 2 (by positivity) (lt_of_mul_lt_mul_left ?_ hx0.le)
  nlinarith

/-- One iteration never overshoots the true value by more than the inner floor allows. -/
theorem exactNewton_le_trueValue (h : Fits x y) (hx : t ^ 2 * x = 2 ^ 32) (ht : 0 < t) :
    (exactNewton x y : ℝ) ≤ (1 + 1 / 2 ^ 16) * t := by
  obtain ⟨hup, _⟩ := exactNewton_near h hx ht
  have hy : (0 : ℝ) ≤ y := by positivity
  have hlt := h.lt_trueValue hx ht
  have hconcave : y * (3 * t ^ 2 - y ^ 2) ≤ 2 * t ^ 3 := by
    linarith [mul_nonneg (sq_nonneg (y - t)) (by linarith : 0 ≤ y + 2 * t)]
  have ht2 : 0 < 2 * t ^ 2 := by positivity
  have ht3 : 0 < t ^ 3 := by positivity
  refine le_of_mul_le_mul_left ?_ ht2
  linarith [mul_le_mul_of_nonneg_left hlt.le (sq_nonneg t)]

end

/-- After one iteration the estimate is within a rounding of the true value, squared. -/
theorem mul_exactNewton_sq_le {x y : Nat} (hx : 2 ≤ x) (h : Fits x y) :
    x * (exactNewton x y * exactNewton x y) ≤ 65537 * 65537 := by
  have hpos : 0 < x := by omega
  have hx0 : (0 : ℝ) < x := by exact_mod_cast hpos
  have hle := exactNewton_le_trueValue h (trueValue_sq_mul hpos) (trueValue_pos hpos)
  have hsq := pow_le_pow_left₀ (by positivity) hle 2
  have hbound : (x : ℝ) * exactNewton x y ^ 2 ≤ 65537 * 65537 :=
    calc (x : ℝ) * exactNewton x y ^ 2 ≤ x * ((1 + 1 / 2 ^ 16) * trueValue x) ^ 2 :=
          mul_le_mul_of_nonneg_left hsq hx0.le
      _ = (1 + 1 / 2 ^ 16) ^ 2 * (trueValue x ^ 2 * x) := by ring
      _ = 65537 * 65537 := by rw [trueValue_sq_mul hpos]; norm_num
  rw [pow_two] at hbound
  exact_mod_cast hbound

/-- For `x >= 2` an iteration leads from an estimate that fits to one that fits (R84). -/
theorem fits_exactNewton {x y : Nat} (hx : 2 ≤ x) (h : Fits x y) : Fits x (exactNewton x y) := by
  have hle := mul_exactNewton_sq_le hx h
  refine ⟨?_, by omega⟩
  have htwice : 2 * (exactNewton x y * exactNewton x y) ≤ x * (exactNewton x y * exactNewton x y) :=
    Nat.mul_le_mul_right _ hx
  by_contra hbig
  have hsq : 46342 * 46342 ≤ exactNewton x y * exactNewton x y := Nat.mul_self_le_mul_self (by omega)
  omega

end Sys2Proof.Machine
end

section
/-! The engine at the default table computes two exact Newton iterations from the interpolated entry (`43_rsqrt.md` R75,
R84, R85). -/

namespace Sys2Proof.Machine

/-- The estimate that the first iteration starts from, as a natural number. At a power of two nothing is taken off the
entry, so that the engine's two cases are one (R80). -/
def startValue (x : Word32) : Nat :=
  (romRead defaultTable (exponent x)).toNat - interpolationDrop (exponent x) x.toNat

section
variable {x : Word32}

theorem startEstimate_toNat (hx : 2 ≤ x.toNat) :
    (startEstimate (engineRun defaultTable x).y0 (engineRun defaultTable x).interp).toNat = startValue x := by
  obtain ⟨_, _, hhi⟩ := exponent_octave hx
  by_cases hpow : x.toNat = 2 ^ (exponent x).val
  · have hrun : (engineRun defaultTable x).interp = none := if_pos hpow
    rw [hrun, startValue, interpolationDrop, hpow, fraction_two_pow, Nat.mul_zero, Nat.zero_div, Nat.sub_zero]
    rfl
  · have hrun : (engineRun defaultTable x).interp = some (interpolate defaultTable (exponent x) x) := if_neg hpow
    obtain ⟨_, _, _, hy⟩ := interpolate_toNat hhi
    rw [hrun]
    exact hy

theorem startValue_bounds (hx : 2 ≤ x.toNat) :
    (nextEntry defaultTable (exponent x)).toNat < startValue x
    ∧ startValue x ≤ (romRead defaultTable (exponent x)).toNat := by
  obtain ⟨_, _, hhi⟩ := exponent_octave hx
  have hlt := interpolationDrop_lt hhi
  rw [startValue]
  omega

/-- Even at the far end of its octave an entry is at most 1.5 times the true value, squared. Entries 27 and 29, which are
6 and 3, meet the bound. -/
theorem defaultTable_sq_le (e : Fin 32) :
    2 ^ (e.val + 1) * ((romRead defaultTable e).toNat * (romRead defaultTable e).toNat) ≤ 147456 * 2 ^ 16 := by
  revert e; decide

theorem defaultTable_le {e : Fin 32} (h : 1 ≤ e.val) : (romRead defaultTable e).toNat ≤ 46341 := by
  revert e; decide

theorem fits_startValue (hx : 2 ≤ x.toNat) : Fits x.toNat (startValue x) := by
  obtain ⟨hpos, _, hhi⟩ := exponent_octave hx
  obtain ⟨_, hle⟩ := startValue_bounds hx
  have hentry := defaultTable_pos (exponent x)
  refine ⟨hle.trans (defaultTable_le hpos), ?_⟩
  calc x.toNat * (startValue x * startValue x)
      ≤ x.toNat * ((romRead defaultTable (exponent x)).toNat * (romRead defaultTable (exponent x)).toNat) :=
        Nat.mul_le_mul_left _ (Nat.mul_self_le_mul_self hle)
    _ < 2 ^ ((exponent x).val + 1)
        * ((romRead defaultTable (exponent x)).toNat * (romRead defaultTable (exponent x)).toNat) :=
        Nat.mul_lt_mul_of_pos_right hhi (Nat.mul_pos hentry hentry)
    _ ≤ 147456 * 2 ^ 16 := defaultTable_sq_le _

theorem newton1_y_toNat (hx : 2 ≤ x.toNat) :
    (engineRun defaultTable x).newton1.y.toNat = exactNewton x.toNat (startValue x) := by
  rw [← startEstimate_toNat hx]
  obtain ⟨_, _, _, hy⟩ := newton_toNat_of_fits (startEstimate_toNat hx ▸ fits_startValue hx)
  exact hy

theorem fits_newton1 (hx : 2 ≤ x.toNat) : Fits x.toNat (engineRun defaultTable x).newton1.y.toNat := by
  rw [newton1_y_toNat hx]
  exact fits_exactNewton hx (fits_startValue hx)

/-- The engine without its truncations (R84). -/
theorem rsqrt_toNat (hx : 2 ≤ x.toNat) :
    (rsqrt defaultTable x).toNat = exactNewton x.toNat (exactNewton x.toNat (startValue x)) := by
  obtain ⟨_, _, _, hy⟩ := newton_toNat_of_fits (fits_newton1 hx)
  rw [rsqrt_general defaultTable hx, ← newton1_y_toNat hx]
  exact hy

end

/-- What R84 lists of one iteration from `y`. -/
theorem newton_bounds {x y : Word32} (h : Fits x.toNat y.toNat) :
    y.toNat ≤ 46341
    ∧ (newton x y).y2.toNat = y.toNat * y.toNat
    ∧ (newton x y).xy2.toNat = x.toNat * (newton x y).y2.toNat / 2 ^ 16 ∧ (newton x y).xy2.toNat ≤ 147455
    ∧ (newton x y).s.toNat = 196608 - (newton x y).xy2.toNat ∧ 49153 ≤ (newton x y).s.toNat
    ∧ (newton x y).y.toNat = y.toNat * (newton x y).s.toNat / 2 ^ 17 := by
  obtain ⟨hy2, hxy2, hs, hy⟩ := newton_toNat_of_fits h
  have hle := xy2_le h
  refine ⟨h.1, hy2, by rw [hxy2, hy2], by omega, by omega, by omega, ?_⟩
  rw [hy, hs, exactNewton]

/-- Settles O49: both iterations begin with an estimate that fits. -/
theorem newtonLosesNothing : Obligations.NewtonLosesNothing := by
  intro x hx r start p hp
  have hstart : start = (startEstimate r.y0 r.interp).toNat := by
    unfold start startEstimate
    cases r.interp <;> rfl
  obtain rfl | rfl := hp
  · rw [hstart]
    exact newton_bounds (startEstimate_toNat hx ▸ fits_startValue hx)
  · exact newton_bounds (fits_newton1 hx)

/-- The table read as a list gives the entry and, with 0 past its end, the next one. -/
theorem defaultTable_getD (e : Fin 32) :
    defaultTable.toList.getD e.val 0 = romRead defaultTable e
    ∧ defaultTable.toList.getD (e.val + 1) 0 = nextEntry defaultTable e := by
  revert e; decide

/-- Settles O50: the start value and the exact iteration, written out. -/
theorem rsqrtIsTheExactFormula : Obligations.RsqrtIsTheExactFormula := by
  intro x hx
  obtain ⟨he, _⟩ := exponent_spec hx
  obtain ⟨hentry, hnext⟩ := defaultTable_getD (exponent x)
  dsimp only
  rw [rsqrt_toNat hx, ← Nat.log2_eq_log_two, ← he, hentry, hnext]
  rfl

/-- An iteration leads to 0 only from 0, or from a 2 that is at least 1.4 times the true value. -/
theorem exactNewton_pos {x y : Nat} (h : Fits x y) (hy : 0 < y) (hx : x < 2 ^ 32) (htwo : y = 2 → x < 2 ^ 31) :
    0 < exactNewton x y := by
  have hw := xy2_le h
  refine Nat.div_pos ?_ (by positivity)
  obtain hsmall | rfl | rfl : 3 ≤ y ∨ y = 2 ∨ y = 1 := by omega
  · calc 2 ^ 17 ≤ 3 * (196608 - 147455) := by norm_num
      _ ≤ y * (196608 - x * (y * y) / 2 ^ 16) := Nat.mul_le_mul hsmall (by omega)
  · have := htwo rfl
    omega
  · omega

/-- In octave 31 the estimate starts from 1, so that from 2 on the iterations never reach 0 (R85). -/
theorem startValue_eq_two {x : Word32} (hx : 2 ≤ x.toNat) (h : startValue x = 2) : x.toNat < 2 ^ 31 := by
  obtain ⟨_, _, hhi⟩ := exponent_octave hx
  obtain ⟨_, hle⟩ := startValue_bounds hx
  have hne : (exponent x).val ≠ 31 := by
    intro he
    rw [h, show exponent x = 31 from Fin.ext he] at hle
    exact absurd hle (by decide)
  exact hhi.trans_le (Nat.pow_le_pow_right (by decide) (by omega))

theorem rsqrt_pos {x : Word32} (hx : 2 ≤ x.toNat) : 0 < (rsqrt defaultTable x).toNat := by
  have hfits := fits_startValue hx
  obtain ⟨hnext, _⟩ := startValue_bounds hx
  have hfirst : 0 < exactNewton x.toNat (startValue x) :=
    exactNewton_pos hfits (Nat.zero_lt_of_lt hnext) x.isLt (startValue_eq_two hx)
  rw [rsqrt_toNat hx]
  refine exactNewton_pos (fits_exactNewton hx hfits) hfirst x.isLt fun htwo => ?_
  have hle := mul_exactNewton_sq_le hx hfits
  rw [htwo] at hle
  omega

theorem rsqrt_le {x : Word32} (hx : 2 ≤ x.toNat) : (rsqrt defaultTable x).toNat ≤ 46341 := by
  obtain ⟨hle, _⟩ := fits_exactNewton hx (fits_exactNewton hx (fits_startValue hx))
  rwa [rsqrt_toNat hx]

/-- Settles O51: the words below 2 are the two special cases, and from 2 on the bounds are those of the iterations. -/
theorem rsqrtRange : Obligations.RsqrtRange := by
  refine ⟨rsqrt_zero _, rsqrt_one _, by decide, fun x hx => ⟨rsqrt_pos hx, rsqrt_le hx⟩, fun x => ?_⟩
  obtain hx | hx | hx : 2 ≤ x.toNat ∨ x.toNat = 1 ∨ x.toNat = 0 := by omega
  · exact fun hzero => absurd (word_toNat_eq_zero_iff.2 hzero) (rsqrt_pos hx).ne'
  · rw [(BitVec.toNat_inj (y := 1)).1 hx, rsqrt_one]
    decide
  · rw [word_toNat_eq_zero_iff.1 hx, rsqrt_zero]
    decide

end Sys2Proof.Machine
end

section
/-! The accuracy of `RSQRT` at the default table (`43_rsqrt.md` R88, R89). -/

namespace Sys2Proof.Machine

/-- A bound on the true value is a bound on `x`. -/
theorem le_trueValue_iff {x : Nat} {a : ℝ} (hx : 0 < x) (ha : 0 ≤ a) : a ≤ trueValue x ↔ a ^ 2 * x ≤ 2 ^ 32 := by
  have hx0 : (0 : ℝ) < x := by exact_mod_cast hx
  rw [← trueValue_sq_mul hx, mul_le_mul_iff_left₀ hx0, sq_le_sq₀ ha (trueValue_pos hx).le]

theorem trueValue_le_iff {x : Nat} {a : ℝ} (hx : 0 < x) (ha : 0 ≤ a) : trueValue x ≤ a ↔ 2 ^ 32 ≤ a ^ 2 * x := by
  have hx0 : (0 : ℝ) < x := by exact_mod_cast hx
  rw [← trueValue_sq_mul hx, mul_le_mul_iff_left₀ hx0, sq_le_sq₀ (trueValue_pos hx).le ha]

/-! Two iterations against the true value `t`, from an estimate within a known distance of it -/

section
variable {x y : Nat} {t : ℝ}

/-- An estimate that misses `t` leads to one that is too small by little more than the square of the miss. -/
theorem exactNewton_defect_lt (h : Fits x y) (hx : t ^ 2 * x = 2 ^ 32) (ht : 0 < t) :
    2 * t ^ 2 * (t - exactNewton x y - 1) < (t - y) ^ 2 * (2 * t + y) := by
  obtain ⟨_, hlow⟩ := exactNewton_near h hx ht
  have hsquare : 2 * t ^ 3 - y * (3 * t ^ 2 - y ^ 2) = (t - y) ^ 2 * (2 * t + y) := by ring
  linarith

/-- Two iterations: where the first is expected to miss `t` by at most `δ * t`, the second is too small by at most about
`3/2 * (δ * t + 1) ^ 2 / t + 1`. -/
theorem exactNewton_twice_defect_le {δ : ℝ} (h : Fits x y) (hx2 : 2 ≤ x) (hx : t ^ 2 * x = 2 ^ 32) (ht : 0 < t)
    (hδ : 0 ≤ δ) (hmiss : (t - y) ^ 2 * (2 * t + y) ≤ 2 * δ * t ^ 3) :
    t * (t - exactNewton x (exactNewton x y) - 1) ≤ 1.505 * (δ * t + 1) ^ 2 := by
  have hfirst := exactNewton_defect_lt h hx ht
  have hsecond := exactNewton_defect_lt (fits_exactNewton hx2 h) hx ht
  have hover := exactNewton_le_trueValue h hx ht
  have ht2 : 0 < 2 * t ^ 2 := by positivity
  have hbelow : t - exactNewton x y - 1 ≤ δ * t := le_of_mul_le_mul_left (by linarith) ht2
  have hx2' : (2 : ℝ) ≤ x := by exact_mod_cast hx2
  have ht16 : t ≤ 2 ^ 16 := le_of_sq_le_sq (by nlinarith) (by norm_num)
  have habove : -(δ * t + 1) ≤ t - exactNewton x y := by linarith [mul_nonneg hδ ht.le]
  have hsq : (t - exactNewton x y) ^ 2 ≤ (δ * t + 1) ^ 2 := sq_le_sq' habove (by linarith)
  have hsum : 2 * t + exactNewton x y ≤ 3.01 * t := by linarith
  have hprod : (t - exactNewton x y) ^ 2 * (2 * t + exactNewton x y) ≤ (δ * t + 1) ^ 2 * (3.01 * t) :=
    mul_le_mul hsq hsum (by positivity) (by positivity)
  refine le_of_mul_le_mul_left ?_ (by positivity : 0 < 2 * t)
  linarith

end

/-! How near the start estimate is -/

/-- In the second half of an octave interpolation takes at least half of the drop off the entry. -/
theorem half_le_interpolationDrop (e : Fin 32) {x : Nat} (h : 3 * 2 ^ e.val ≤ 2 * x) :
    ((romRead defaultTable e).toNat - (nextEntry defaultTable e).toNat) / 2 ≤ interpolationDrop e x := by
  have hhalf : 2 ^ 15 ≤ fraction e.val x := by
    rw [fraction, Nat.le_div_iff_mul_le (by positivity)]
    omega
  calc ((romRead defaultTable e).toNat - (nextEntry defaultTable e).toNat) / 2
      = ((romRead defaultTable e).toNat - (nextEntry defaultTable e).toNat) * 2 ^ 15 / 2 ^ 16 := by omega
    _ ≤ interpolationDrop e x := Nat.div_le_div_right (Nat.mul_le_mul_left _ hhalf)

/-- Up to octave 26 the start estimate is at most 5/4 of the true value; in octave 27, where the table is coarse, the
square of the ratio is at most 27/16. This is that square, in sixteenths. -/
def startRatio (e : Fin 32) : Nat := if e.val = 27 then 27 else 25

/-- The table meets the ratio half an octave at a time: with the entry up to the middle of the octave, and with half of the
drop taken off up to its end. -/
theorem defaultTable_half_sq_le {e : Fin 32} (h : e.val ≤ 27) :
    3 * 2 ^ e.val * (romRead defaultTable e).toNat ^ 2 ≤ startRatio e * 2 ^ 29
    ∧ 2 ^ (e.val + 1) * ((romRead defaultTable e).toNat
        - ((romRead defaultTable e).toNat - (nextEntry defaultTable e).toNat) / 2) ^ 2 ≤ startRatio e * 2 ^ 28 := by
  revert e; decide

theorem defaultTable_next_sq_ge {e : Fin 32} (h : e.val ≤ 30) :
    2 ^ 31 ≤ 2 ^ e.val * ((nextEntry defaultTable e).toNat + 1) ^ 2 := by
  revert e; decide

section
variable {x : Word32}

theorem mul_startValue_sq_le (hx : 2 ≤ x.toNat) (he : (exponent x).val ≤ 27) :
    x.toNat * startValue x ^ 2 ≤ startRatio (exponent x) * 2 ^ 28 := by
  obtain ⟨_, _, hhi⟩ := exponent_octave hx
  obtain ⟨hfirst, hsecond⟩ := defaultTable_half_sq_le he
  obtain hhalf | hhalf := lt_or_ge (2 * x.toNat) (3 * 2 ^ (exponent x).val)
  · obtain ⟨_, hle⟩ := startValue_bounds hx
    have := (Nat.mul_le_mul hhalf.le (Nat.pow_le_pow_left hle 2)).trans hfirst
    rw [mul_assoc] at this
    omega
  · have hdrop := half_le_interpolationDrop (exponent x) hhalf
    exact (Nat.mul_le_mul hhi.le (Nat.pow_le_pow_left (Nat.sub_le_sub_left hdrop _) 2)).trans hsecond

theorem mul_startValue_sq_ge (hx : 2 ≤ x.toNat) (he : (exponent x).val ≤ 30) :
    2 ^ 31 ≤ x.toNat * startValue x ^ 2 := by
  obtain ⟨_, hlo, _⟩ := exponent_octave hx
  obtain ⟨hnext, _⟩ := startValue_bounds hx
  exact (defaultTable_next_sq_ge he).trans (Nat.mul_le_mul hlo (Nat.pow_le_pow_left hnext 2))

/-- Up to octave 27 the start estimate is between 0.7 and the square root of `startRatio / 16` of the true value. -/
theorem startValue_near (hx : 2 ≤ x.toNat) (he : (exponent x).val ≤ 27) :
    0.7 * trueValue x.toNat ≤ startValue x
    ∧ (startValue x : ℝ) ^ 2 ≤ startRatio (exponent x) / 16 * trueValue x.toNat ^ 2 := by
  have hpos : 0 < x.toNat := by omega
  have hx0 : (0 : ℝ) < x.toNat := by exact_mod_cast hpos
  have hle : (x.toNat * startValue x ^ 2 : ℝ) ≤ startRatio (exponent x) * 2 ^ 28 := by
    exact_mod_cast mul_startValue_sq_le hx he
  have hge : (2 ^ 31 : ℝ) ≤ x.toNat * startValue x ^ 2 := by
    exact_mod_cast mul_startValue_sq_ge hx (by omega)
  have ht := trueValue_pos hpos
  have htrue := trueValue_sq_mul hpos
  constructor
  · refine le_of_sq_le_sq ?_ (by positivity)
    exact le_of_mul_le_mul_left (by linarith) hx0
  · refine le_of_mul_le_mul_left (hle.trans_eq ?_) hx0
    linear_combination -(startRatio (exponent x) / 16 : ℝ) * htrue

end

/-! What two iterations are expected to miss -/

section
variable {y t n : ℝ}

/-- One iteration from between `0.7` and `ρ` times the true value is expected to miss it by no more than from one of the
two ends. -/
theorem miss_le {ρ δ : ℝ} (ht : 0 < t) (hlo : 0.7 * t ≤ y) (hhi : y ≤ ρ * t)
    (hbelow : (1 - 0.7) ^ 2 * (2 + 0.7) ≤ 2 * δ) (habove : (ρ - 1) ^ 2 * (2 + ρ) ≤ 2 * δ) :
    (t - y) ^ 2 * (2 * t + y) ≤ 2 * δ * t ^ 3 := by
  have ht3 : 0 < t ^ 3 := by positivity
  obtain hle | hge := le_total y t
  · have hfactor : 0 ≤ 2.51 * t ^ 2 - 0.7 * t * y - y ^ 2 := by nlinarith
    calc (t - y) ^ 2 * (2 * t + y)
        = (1 - 0.7) ^ 2 * (2 + 0.7) * t ^ 3 - (y - 0.7 * t) * (2.51 * t ^ 2 - 0.7 * t * y - y ^ 2) := by ring
      _ ≤ (1 - 0.7) ^ 2 * (2 + 0.7) * t ^ 3 := sub_le_self _ (mul_nonneg (sub_nonneg.2 hlo) hfactor)
      _ ≤ 2 * δ * t ^ 3 := mul_le_mul_of_nonneg_right hbelow ht3.le
  · have hsq : (y - t) ^ 2 ≤ ((ρ - 1) * t) ^ 2 := pow_le_pow_left₀ (sub_nonneg.2 hge) (by linarith) 2
    have hsum : 2 * t + y ≤ (2 + ρ) * t := by linarith
    calc (t - y) ^ 2 * (2 * t + y) = (y - t) ^ 2 * (2 * t + y) := by ring
      _ ≤ ((ρ - 1) * t) ^ 2 * ((2 + ρ) * t) := mul_le_mul hsq hsum (by linarith) (by positivity)
      _ = (ρ - 1) ^ 2 * (2 + ρ) * t ^ 3 := by ring
      _ ≤ 2 * δ * t ^ 3 := mul_le_mul_of_nonneg_right habove ht3.le

/-- A second iteration after a miss of 12.15% is within the tolerance, from a true value of 5.65 on. -/
theorem within_of_defect (ht : 5.65 ≤ t) (h : t * (t - n - 1) ≤ 1.505 * (0.1215 * t + 1) ^ 2) :
    t - n ≤ max (0.10 * t) 2 := by
  obtain hsmall | hlarge := le_total t 20
  · refine le_max_of_le_right ?_
    nlinarith [mul_nonneg (sub_nonneg.2 ht) (sub_nonneg.2 hsmall)]
  · refine le_max_of_le_left ?_
    nlinarith

/-- A second iteration after a miss of 14.85% is within 2 units, for the true values of octave 27. -/
theorem within_two_of_defect (hlo : 4 ≤ t) (hhi : t ≤ 5.7) (h : t * (t - n - 1) ≤ 1.505 * (0.1485 * t + 1) ^ 2) :
    t - n ≤ 2 := by
  nlinarith [mul_nonneg (sub_nonneg.2 hlo) (sub_nonneg.2 hhi)]

end

section
variable {x : Word32}

/-- Up to octave 27 the result is not too small (R89). -/
theorem trueValue_sub_rsqrt_le (hx : 2 ≤ x.toNat) (he : (exponent x).val ≤ 27) :
    trueValue x.toNat - (rsqrt defaultTable x).toNat ≤ max (0.10 * trueValue x.toNat) 2 := by
  have hpos : 0 < x.toNat := by omega
  have ht := trueValue_pos hpos
  have htrue := trueValue_sq_mul hpos
  obtain ⟨_, hlo, hhi⟩ := exponent_octave hx
  obtain ⟨hnear, hratio⟩ := startValue_near hx he
  have htwice {δ : ℝ} := exactNewton_twice_defect_le (δ := δ) (fits_startValue hx) hx htrue ht
  rw [rsqrt_toNat hx]
  obtain heq | hlt := he.eq_or_lt
  · rw [startRatio, if_pos heq] at hratio
    rw [heq] at hlo hhi
    have hlo' : (2 ^ 27 : ℝ) ≤ x.toNat := by exact_mod_cast hlo
    have hhi' : (x.toNat : ℝ) < 2 ^ 28 := by exact_mod_cast hhi
    have hfour : 4 ≤ trueValue x.toNat := (le_trueValue_iff hpos (by norm_num)).2 (by linarith)
    have hsix : trueValue x.toNat ≤ 5.7 := (trueValue_le_iff hpos (by norm_num)).2 (by linarith)
    have hstart : (startValue x : ℝ) ≤ 1.3 * trueValue x.toNat :=
      le_of_sq_le_sq (hratio.trans (by nlinarith)) (by positivity)
    exact le_max_of_le_right (within_two_of_defect hfour hsix
      (htwice (by norm_num) (miss_le ht hnear hstart (by norm_num) (by norm_num))))
  · rw [startRatio, if_neg hlt.ne] at hratio
    have hhi' : (x.toNat : ℝ) < 2 ^ 27 := by
      exact_mod_cast hhi.trans_le (Nat.pow_le_pow_right (by decide) hlt)
    have hleast : 5.65 ≤ trueValue x.toNat := (le_trueValue_iff hpos (by norm_num)).2 (by linarith)
    have hstart : (startValue x : ℝ) ≤ 1.25 * trueValue x.toNat :=
      le_of_sq_le_sq (hratio.trans (by nlinarith)) (by positivity)
    exact within_of_defect hleast
      (htwice (by norm_num) (miss_le ht hnear hstart (by norm_num) (by norm_num)))

/-- In octave 28 every estimate starts from 4, and the result is at least 2 wherever the true value is above 3. -/
theorem two_le_rsqrt (he : (exponent x).val = 28) (hx : 2 ≤ x.toNat) (h9 : 9 * x.toNat < 2 ^ 32) :
    2 ≤ (rsqrt defaultTable x).toNat := by
  obtain ⟨_, hlo, _⟩ := exponent_octave hx
  obtain ⟨hnext, hle⟩ := startValue_bounds hx
  rw [he] at hlo
  rw [show exponent x = 28 from Fin.ext he] at hnext hle
  have hstart : startValue x = 4 := le_antisymm hle hnext
  have hfirst : exactNewton x.toNat 4 = 2 ∨ exactNewton x.toNat 4 = 3 ∨ exactNewton x.toNat 4 = 4 := by
    unfold exactNewton
    omega
  rw [rsqrt_toNat hx, hstart]
  obtain h | h | h := hfirst <;> rw [h, exactNewton] <;> omega

/-- From octave 28 on the true value is at most 4, and a small result is enough (R89). -/
theorem trueValue_sub_rsqrt_le_two (hx : 2 ≤ x.toNat) (he : 28 ≤ (exponent x).val) :
    trueValue x.toNat - (rsqrt defaultTable x).toNat ≤ 2 := by
  have hpos : 0 < x.toNat := by omega
  obtain ⟨_, hlo, _⟩ := exponent_octave hx
  have hlo28 : 2 ^ 28 ≤ x.toNat := (Nat.pow_le_pow_right (by decide) he).trans hlo
  obtain h9 | h9 := lt_or_ge (9 * x.toNat) (2 ^ 32)
  · have he28 : (exponent x).val = 28 := by
      by_contra hne
      have : 2 ^ 29 ≤ x.toNat := (Nat.pow_le_pow_right (by decide) (by omega)).trans hlo
      omega
    have hres : (2 : ℝ) ≤ (rsqrt defaultTable x).toNat := by exact_mod_cast two_le_rsqrt he28 hx h9
    have hlo' : (2 ^ 28 : ℝ) ≤ x.toNat := by exact_mod_cast hlo28
    have hfour : trueValue x.toNat ≤ 4 := (trueValue_le_iff hpos (by norm_num)).2 (by linarith)
    linarith
  · have hres : (1 : ℝ) ≤ (rsqrt defaultTable x).toNat := by exact_mod_cast rsqrt_pos hx
    have h9' : (2 ^ 32 : ℝ) ≤ 9 * x.toNat := by exact_mod_cast h9
    have hthree : trueValue x.toNat ≤ 3 := (trueValue_le_iff hpos (by norm_num)).2 (by linarith)
    linarith

/-- The result is never too large by more than a rounding (R88). -/
theorem rsqrt_le_trueValue (hx : 2 ≤ x.toNat) :
    ((rsqrt defaultTable x).toNat : ℝ) ≤ (1 + 1 / 2 ^ 16) * trueValue x.toNat := by
  have hpos : 0 < x.toNat := by omega
  rw [rsqrt_toNat hx]
  exact exactNewton_le_trueValue (fits_exactNewton hx (fits_startValue hx)) (trueValue_sq_mul hpos)
    (trueValue_pos hpos)

end

/-- Settles O55: the result is too large by a rounding at most; up to octave 27 the error of two iterations bounds how far
it is too small, and from there on its least values do. -/
theorem rsqrtWithinTolerance : Obligations.RsqrtWithinTolerance := by
  intro x hx
  change |((rsqrt defaultTable x).toNat : ℝ) - trueValue x.toNat| ≤ max (0.10 * trueValue x.toNat) 2
  have ht := trueValue_pos (x := x.toNat) (by omega)
  have hover := rsqrt_le_trueValue hx
  rw [abs_sub_le_iff]
  refine ⟨le_max_of_le_left (by linarith), ?_⟩
  obtain he | he := le_or_gt (exponent x).val 27
  · exact trueValue_sub_rsqrt_le hx he
  · exact le_max_of_le_right (trueValue_sub_rsqrt_le_two hx he)

end Sys2Proof.Machine
end

section
/-! What can stop the machine (`60_exceptions.md` R92, R106, R109), and a machine with no clock edge left (R101). -/

namespace Sys2Proof.Machine

/-- Settles O22: the empty event list is a case of `step` by itself, with no edge and no read. -/
theorem noEdgeNoChange : Obligations.NoEdgeNoChange := fun _ => step_nil

/-- Past the first reset a step that reads no port answers, for then it is a rising edge or no event at all (R92). -/
theorem step_next_of_no_read {s : State} (hi : s.inited = true)
    (hread : ∀ (o : OutputPort) (rest : List HostEvent), s.inputs ≠ .read o :: rest) : ∃ t, step s = .next t := by
  cases hin : s.inputs with
  | nil => exact ⟨s, step_nil hin⟩
  | cons ev rest =>
    cases ev with
    | edge p =>
      obtain ⟨t, hedge, _⟩ := clockEdge_next p (s := { s with inputs := rest }) hi
      exact ⟨t, (step_edge hin).trans hedge⟩
    | read o => exact absurd hin (hread o rest)

/-- A step faults only at a read, and only of a port that is UNSPECIFIED (R9, R92, R109). -/
theorem step_fault {s : State} {r : Fault} (h : step s = .fault r) :
    ∃ o rest, s.inputs = .read o :: rest ∧ r = .unspecifiedRead o
      ∧ (s.inited = false ∨ (o = .result ∧ s.result = none)) := by
  cases hin : s.inputs with
  | nil => rw [step_nil hin] at h; cases h
  | cons ev rest =>
    cases ev with
    | edge p => rw [step_edge hin] at h; exact absurd h (clockEdge_ne_fault p _ r)
    | read o => rw [step_read hin] at h; exact ⟨o, rest, rfl, readPort_fault (s := { s with inputs := rest }) h⟩

/-- A step is refused only at an edge with `rst = 0` before the first reset (R106). -/
theorem step_refused {s : State} {r : Refusal} (h : step s = .refused r) :
    r = .beforeFirstReset ∧ s.inited = false ∧ ∃ p rest, s.inputs = .edge p :: rest ∧ p.rst = false := by
  cases hin : s.inputs with
  | nil => rw [step_nil hin] at h; cases h
  | cons ev rest =>
    cases ev with
    | edge p =>
      rw [step_edge hin] at h
      obtain ⟨hr, hi, hrst⟩ := clockEdge_refused h
      exact ⟨hr, hi, p, rest, rfl, hrst⟩
    | read o => rw [step_read hin] at h; exact absurd h (readPort_ne_refused o _ r)

/-- Settles O13: an edge never faults, a read is never refused, and what stops either names its cause. -/
theorem onlyUnspecifiedReadsFault : Obligations.OnlyUnspecifiedReadsFault :=
  fun _ => ⟨step_next_of_no_read, fun _ => step_fault, fun _ => step_refused⟩

end Sys2Proof.Machine
end

section
/-! The hazards of `70_reset_and_hazards.md`: no reset edge yet (R106), a command in flight (R108, R110), `start` held
(R111), and a read of `result` (R109). -/

namespace Sys2Proof.Machine

/-- Settles O9: an edge with `rst = 0`, a command and a read are each stopped by their own law of an uninitialised block. -/
theorem runBeforeResetHasNoMeaning : Obligations.RunBeforeResetHasNoMeaning := by
  intro s hs
  refine ⟨fun p rest hp => ?_, fun i => exec_uninit hs, fun o rest => ?_⟩
  · exact (step_with_edge s p rest).trans (clockEdge_uninit hp hs)
  · exact (step_with_read s o rest).trans (readPort_uninit hs)

/-- One edge without reset moves a command in flight on, whatever the other ports hold (R108). -/
theorem runEdges_busy {p : InputPorts} {s : State} (hp : p.rst = false) (hi : s.inited = true) (hb : s.busy = true) :
    runEdges [p] s = .next (busyEdge s) := by
  rw [runEdges_cons_next (clockEdge_busy hp hi hb), runEdges_nil]

/-- Settles O18: the dropped command, the quiet edge and the edge that presents the command are all the busy edge. -/
theorem commandWhileBusyIsDropped : Obligations.CommandWhileBusyIsDropped :=
  fun _ _ hi hb => ⟨_, exec_busy hi hb, runEdges_busy rfl hi hb, runEdges_busy rfl hi hb⟩

/-- Settles O19: where a run of edges leaves a busy block, short of its completion and at it, says nothing of the ports
but how many edges there were. -/
theorem portsFreeWhileBusy : Obligations.PortsFreeWhileBusy := by
  intro s ps qs hi hb hlen hle hps hqs
  by_cases hp : ps = []
  · have hq : qs = [] := List.eq_nil_of_length_eq_zero (by simp [← hlen, hp])
    exact ⟨s, by rw [hp, runEdges_nil], by rw [hq, runEdges_nil]⟩
  · have hq : qs ≠ [] := List.ne_nil_of_length_pos (hlen ▸ List.length_pos_of_ne_nil hp)
    obtain hlt | hlast := hle.lt_or_eq
    · exact ⟨_, runEdges_hold hi hb hlt hps hp, hlen ▸ runEdges_hold hi hb (hlen ▸ hlt) hqs hq⟩
    · exact ⟨_, runEdges_complete hi hb hlast hps hp, runEdges_complete hi hb (hlen ▸ hlast) hqs hq⟩

/-- What a command leaves at its completion is all rewritten when the same command is accepted again (R26, R27). -/
theorem acceptEdge_completeEdge_acceptEdge (op : OpCode) (opa : Word64) (opb : Word32) (v : Word64) (s : State) :
    acceptEdge op opa opb v (completeEdge (acceptEdge op opa opb v s)) = acceptEdge op opa opb v s := rfl

theorem noReset_replicate {p : InputPorts} (hp : p.rst = false) (k : Nat) : NoReset (List.replicate k p) :=
  fun _ hq => List.eq_of_mem_replicate hq ▸ hp

/-- Settles O20: a command in flight does not see that `start` is held, and the first idle edge after it accepts. -/
theorem heldStartIssuesAgain : Obligations.HeldStartIssuesAgain := by
  intro i s hi hb hpos
  refine ⟨_, _, exec_idle hi hb, runEdges_acceptEdge_complete _ _ _ _ hi hpos (List.length_replicate ..)
    (noReset_replicate rfl _), rfl, rfl, ?_⟩
  rw [runEdges_present i (by simpa using hi) rfl, completeEdge_rom, acceptEdge_rom, acceptEdge_completeEdge_acceptEdge]

theorem readResult_none {s : State} (hi : s.inited = true) (hr : s.result = none) :
    readResult s = .error (.unspecifiedRead .result) := by
  simp [readResult, hi, hr]

/-! Past the first reset the host reads `busy` and `done` in every cycle, and `result` where it has a value (R12, R109). -/

theorem readPort_busy {s : State} (hi : s.inited = true) : readPort .busy s = .next s := by
  rw [readPort, readBusy_inited hi, afterRead]

theorem readPort_done {s : State} (hi : s.inited = true) : readPort .done s = .next s := by
  rw [readPort, readDone_inited hi, afterRead]

theorem readPort_result_some {s : State} {v : Word64} (hi : s.inited = true) (hv : s.result = some v) :
    readPort .result s = .next s := by
  rw [readPort, readResult_some hi hv, afterRead]

theorem readPort_result_none {s : State} (hi : s.inited = true) (hr : s.result = none) :
    readPort .result s = .fault (.unspecifiedRead .result) := by
  rw [readPort, readResult_none hi hr, afterRead]

/-- Settles O25: a read of `result` asks only whether it has a value, which under the invariant it has at the `done` pulse
and has not while `busy = 1`. -/
theorem resultReadableOnlyWhenDefined : Obligations.ResultReadableOnlyWhenDefined := by
  intro s rest hi
  have hsome : ∀ v, s.result = some v →
      step { s with inputs := .read .result :: rest } = .next { s with inputs := rest } :=
    fun _ hv => (step_with_read s .result rest).trans (readPort_result_some hi hv)
  have hnone : s.result = none → step { s with inputs := .read .result :: rest } = .fault (.unspecifiedRead .result) :=
    fun hr => (step_with_read s .result rest).trans (readPort_result_none hi hr)
  refine ⟨fun v hv => ⟨readResult_some hi hv, hsome v hv⟩, hnone, fun hinv hd => ?_,
    fun hinv hb => hnone (hinv.busyHides hi hb), readBusy_inited hi, readDone_inited hi,
    (step_with_read s .busy rest).trans (readPort_busy hi), (step_with_read s .done rest).trans (readPort_done hi)⟩
  obtain ⟨v, hv⟩ := Option.isSome_iff_exists.1 (hinv.doneHas hi hd)
  exact hsome v hv

end Sys2Proof.Machine
end
